-- ==== Sys2Proof/Word.lean ====
section
/-! DEFINITION. The two word types of the block: 32-bit registers (R7, R16) and 8-bit samples and channels (R7). -/

namespace Sys2Proof

/-- A register, a command word or a packed pixel: 32 bits (R7). -/
abbrev Word := BitVec 32

/-- A sample, a channel or a memory cell: 8 bits (R7). -/
abbrev Byte := BitVec 8

end Sys2Proof
end

