-- ==== Sys2Proof/Config.lean ====
section
/-! DEFINITION. What the spec leaves open: the parameter REG_BASE (R7) and the two free choices (R127, R132). None has a body, so nothing can be proved of a value. -/

namespace Sys2Proof

/-- REG_BASE in units of 64 bytes: R7 leaves REG_BASE open, "a multiple of 64" (log 13). -/
opaque Config.regBlock : Nat

/-- REG_BASE, the address of the 64-byte register window on the host's bus (R7, R16). -/
def Config.regBase : Nat := 64 * Config.regBlock

/-- FREE VALUE. Whether the read numbered by the first argument, made while BUSY, sees the new value of the
destination pixel at the address in the second (R132; log 5). -/
opaque Config.seesNew : Nat → Nat → Bool

/-- FREE VALUE. Whether the reset numbered by the first argument, made during a command, leaves the new value in the
destination pixel at the address in the second (R127; log 6). -/
opaque Config.resetLeavesNew : Nat → Nat → Bool

end Sys2Proof
end

