-- ==== Sys2Proof/Syntax.lean ====
section
/-! DEFINITION. The instruction set as syntax: one constructor per row of spec/opcode_table.json, the 16 command words (R71) and the five internal operations (R73). -/

namespace Sys2Proof

/-- The chroma layout a command names through OPC (R67, R94). -/
inductive Layout where
  | l420
  | l422
deriving DecidableEq, Repr

/-- The rotation selector, in the order of R68. -/
inductive Rotation where
  | rot0
  | rot90
  | rot180
  | rot270
  | mir0
  | mir90
  | mir180
  | mir270
deriving DecidableEq, Repr

/-- A row view (R81): origin address, number of samples, and whether the row is traversed right to left. -/
structure RowView where
  o   : Int
  n   : Nat
  rtl : Bool
deriving DecidableEq, Repr

/-- One constructor per row of the opcode table. The commands carry no operand (R72: every operand comes from an
argument register); the internal operations carry the operands their rules list. -/
inductive Instr where
  | scale420Rot0
  | scale420Rot90
  | scale420Rot180
  | scale420Rot270
  | scale420Mir0
  | scale420Mir90
  | scale420Mir180
  | scale420Mir270
  | scale422Rot0
  | scale422Rot90
  | scale422Rot180
  | scale422Rot270
  | scale422Mir0
  | scale422Mir90
  | scale422Mir180
  | scale422Mir270
  /-- SAT, R78: a signed index. -/
  | sat (i : Int)
  /-- YUVPIXEL, R84: luma and the two chroma samples. -/
  | yuvpixel (y u v : Byte)
  /-- ROW.IDENT, R87: luma, U and V views, destination row address, destination width. -/
  | rowIdent (lv uv vv : RowView) (d : Int) (dw : Nat)
  /-- ROW.GENERAL, R88: as ROW.IDENT, and the signed step dx. -/
  | rowGeneral (lv uv vv : RowView) (d : Int) (dw : Nat) (dx : Int)
  /-- ROW.HALF, R89: as ROW.IDENT. -/
  | rowHalf (lv uv vv : RowView) (d : Int) (dw : Nat)
deriving DecidableEq, Repr

end Sys2Proof
end

