-- ==== Sys2Proof/Machine/State.lean ====
section
/-! DEFINITION. The whole state (R13, R36), the reasons a step can stop, and reset (R127, R128). Fields that are the model's own and not the spec's say so. -/

namespace Sys2Proof.Machine

/-- Why a row operation has no next state. -/
inductive Fault where
  /-- Raised by ROW.IDENT, ROW.GENERAL and ROW.HALF when the platform does not complete an access of theirs (R64).
  Safe: no value is guessed and no write is skipped. The engine's turn answers it by being stuck from then on, so BUSY
  stays 1 and the host goes on (log 3). -/
  | accessNotCompleted (addr : Nat)
deriving DecidableEq, Repr

/-- Why the model refuses a step: the spec says that the run has no meaning and that a model refuses it. -/
inductive Refusal where
  /-- Raised by no arm of exec: every instruction has its meaning. Safe. -/
  | notModelled (mnemonic : String)
  /-- A host register access that is not an aligned 32-bit access (R40), one that begins below the window and reaches into
  it among them (log 13). Raised by the host's register accesses. Safe. -/
  | registerAccessNotAlignedWord
  /-- The destination set of a command that passes its checks shares a byte with a sample set (R55). Raised by the eight
  supported commands at acceptance. Safe. -/
  | destinationOverlapsSamples
  /-- The destination set overlaps itself after reduction modulo 2^32 (R54, R55). Raised by the eight supported commands
  at acceptance. Safe. -/
  | destinationOverlapsItself
  /-- A plane or the destination lies on addresses with side effects (R52). Raised by the eight supported commands at
  acceptance, and by a row operation that reaches such an address. Safe. -/
  | sideEffectMemory
  /-- A host write to a sample byte is not yet performed when the command is accepted (R57, R130 (1)). Raised by the eight
  supported commands at acceptance. Safe. -/
  | hostWriteNotPerformed
  /-- A write of the host, or of another agent, to a byte of the command's sample sets or destination set is performed
  while BUSY (R130 (2)). Raised when the platform performs a posted write. Safe. -/
  | hostWriteDuringCommand
  /-- A host memory access to an address that is not ordinary memory: the platform's matter (R44, log 19). Raised by the
  host's memory reads and by the performing of a posted write. Safe. -/
  | hostAccessNotMemory
deriving DecidableEq, Repr

/-- Memory as (address, byte) pairs; what an address not listed reads as is `unlistedByte` (log 1). -/
abbrev Memory := List Host.Cell

/-- The ten argument registers (R17 to R26). -/
structure Args where
  yBase     : Word
  uBase     : Word
  vBase     : Word
  yStride   : Word
  uStride   : Word
  vStride   : Word
  srcSize   : Word
  dstBase   : Word
  dstStride : Word
  dstSize   : Word
deriving DecidableEq, Repr

/-- The latched command snapshot (R35). -/
structure Snapshot where
  layout   : Layout
  rotation : Rotation
  args     : Args
deriving DecidableEq, Repr

/-- The normalised plane origins and strides and the normalised width W' (R36, R93, R96, R97). -/
structure Normalised where
  oY : Int
  oU : Int
  oV : Int
  sY : Int
  sU : Int
  sV : Int
  wN : Int
deriving DecidableEq, Repr

/-- What the engine holds while BUSY (R35, R36): the snapshot, the normalised geometry, the destination rows not yet
produced, whether it is stuck at an access the platform did not complete (R64, R116, 93 S8; log 3), and (the model's
own, log 15) memory as it was at acceptance. -/
structure Engine where
  snap    : Snapshot
  norm    : Normalised
  pending : List Nat
  stuck   : Bool
  before  : Memory
deriving DecidableEq, Repr

/-- The engine phase (R34). -/
inductive Phase where
  | idle
  | busy (e : Engine)
deriving DecidableEq, Repr

/-- STATUS.ERR (R32, R107): codes 6 to 15 are never written, so they have no constructor. -/
inductive ErrorCode where
  | none
  | illegalCommand
  | unsupportedRotation
  | zeroDimension
  | dstMisaligned
  | dstRowOverlap
deriving DecidableEq, Repr

/-- The result of YUVPIXEL (R84): B, G, R, alpha. -/
structure Pixel where
  b : Byte
  g : Byte
  r : Byte
  a : Byte
deriving DecidableEq, Repr

/-- What the platform has at a range of addresses that is not ordinary memory (log 2). -/
inductive RegionKind where
  /-- An access is never completed (R64). -/
  | absent
  /-- An access has side effects (R52). -/
  | sideEffect
deriving DecidableEq, Repr

/-- A range of addresses `base` to `base + size - 1` that is not ordinary memory (log 2). -/
structure Region where
  base : Nat
  size : Nat
  kind : RegionKind
deriving DecidableEq, Repr

/-- One event of R120 or 92 D31: an access of the host or the platform, the reset input, or a turn of the engine (log 7). -/
inductive Input where
  /-- A host write of `size` bytes, value `v`, at REG_BASE + off (R39, R40). -/
  | regWrite (off : BitVec 6) (size : Nat) (v : Word)
  /-- A host read of `size` bytes at REG_BASE + off (R38, R40). -/
  | regRead (off : BitVec 6) (size : Nat)
  /-- A host write at a bus address: the register window is at REG_BASE (R16). -/
  | busWrite (addr : Nat) (size : Nat) (v : Word)
  /-- A host read at a bus address. -/
  | busRead (addr : Nat) (size : Nat)
  /-- The host, or another agent, posts a write of one byte of memory (R57; log 10). -/
  | memWrite (addr : BitVec 32) (v : Byte)
  /-- The platform performs the oldest posted write (R57; log 10). -/
  | memDrain
  /-- The host reads `count` bytes of memory (R58, R59). -/
  | memRead (addr : BitVec 32) (count : Nat)
  /-- A turn of the engine, at the pending row that `pick` chooses (R56, R124; log 4). -/
  | engine (pick : Nat)
  /-- The platform asserts the reset input (R127). -/
  | reset
deriving DecidableEq, Repr

/-- The state of the block, of the memory it works on, and of what the outside world is about to do. -/
structure State where
  /-- The argument registers (R17 to R26). -/
  args     : Args
  /-- CMD (R27). -/
  cmd      : Word
  /-- STATUS.DONE (R30). -/
  done     : Bool
  /-- STATUS.OVERRUN (R31). -/
  overrun  : Bool
  /-- STATUS.ERR (R32). -/
  err      : ErrorCode
  /-- The engine phase (R34); STATUS.BUSY is its view (R29). -/
  phase    : Phase
  /-- Memory (R42). -/
  mem      : Memory
  /-- The model's own (log 9): what SAT returned when executed alone (R78). -/
  satOut   : Byte
  /-- The model's own (log 9): what YUVPIXEL returned when executed alone (R84). -/
  pixelOut : Pixel
  /-- The model's own (log 12): the bytes the host's last read returned, lowest address first. -/
  busData  : List Byte
  /-- The model's own (log 10): host writes not yet performed, oldest first. -/
  posted   : List (BitVec 32 × Byte)
  /-- The model's own (log 2): where the platform has no ordinary memory. -/
  regions  : List Region
  /-- The model's own (log 7): the coming events, oldest first. -/
  inputs   : List Input
  /-- The model's own (log 18): the number of free choices made so far. -/
  nonce    : Nat
deriving DecidableEq, Repr

/-- Every argument register at its reset value (R128). -/
def Args.reset : Args where
  yBase := 0
  uBase := 0
  vBase := 0
  yStride := 0
  uStride := 0
  vStride := 0
  srcSize := 0
  dstBase := 0
  dstStride := 0
  dstSize := 0

/-- The machine right after reset (R127, R128), with nothing in memory, no event to come, and the model's own fields at
the values of their log entries. -/
def State.reset : State where
  args := Args.reset
  cmd := 0
  done := false
  overrun := false
  err := .none
  phase := .idle
  mem := []
  satOut := 0
  pixelOut := ⟨0, 0, 0, 0⟩
  busData := []
  posted := []
  regions := []
  inputs := []
  nonce := 0

end Sys2Proof.Machine
end

