-- ==== Sys2Proof/Machine/Flags.lean ====
section
/-! DEFINITION. The STATUS fields and the STATUS word (R28 to R32). The block has no other flags (R41). -/

namespace Sys2Proof.Machine

/-- The error codes' numbers (R107). -/
def ErrorCode.code : ErrorCode → BitVec 4
  | .none => 0
  | .illegalCommand => 1
  | .unsupportedRotation => 2
  | .zeroDimension => 3
  | .dstMisaligned => 4
  | .dstRowOverlap => 5

/-- STATUS.BUSY reads 1 exactly while the phase is BUSY (R29). -/
def Phase.isBusy : Phase → Bool
  | .idle => false
  | .busy _ => true

/-- The STATUS word (R28): BUSY, DONE, OVERRUN in bits 0 to 2, ERR in bits 7:4, every other bit 0. -/
def statusWord (s : State) : Word :=
  0#24 ++ s.err.code ++ 0#1 ++ BitVec.ofBool s.overrun ++ BitVec.ofBool s.done ++ BitVec.ofBool s.phase.isBusy

/-- OVERRUN is set when a register write is dropped (R31, R39). -/
def setOverrun (s : State) : State := { s with overrun := true }

end Sys2Proof.Machine
end

