-- ==== Sys2Proof/Machine/Arith.lean ====
section
/-! DEFINITION. The integer operators of R9 and the byte order of words (R49). -/

namespace Sys2Proof.Machine

/-- `asr(v, n)` of R9: `floor(v / 2^n)`. The divisor is positive, so Lean's integer division is the floor. -/
def asr (v : Int) (n : Nat) : Int := v / (2 ^ n : Nat)

/-- `tdiv(a, b)` of R9: rounded toward zero. -/
def tdiv (a b : Int) : Int := Int.tdiv a b

/-- `fdiv(a, b)` of R9: rounded toward minus infinity. -/
def fdiv (a b : Int) : Int := Int.fdiv a b

/-- `clamp(v, lo, hi)` of R9, with its order of tests. -/
def clamp (v lo hi : Int) : Int := if v < lo then lo else if hi < v then hi else v

/-- The step of R103 for a normalised width `w` and a destination width `dw`: `tdiv(16·W', DW)`. -/
def stepOf (w : Int) (dw : Nat) : Int := tdiv (16 * w) dw

/-- An address on mathematical integers, reduced modulo 2^32 (R43). -/
def addrOf (v : Int) : Nat := (v % 4294967296).toNat

/-- The byte at offset `k` of a word stored little-endian (R49): bits `8k+7 : 8k`. -/
def byteAt (v : Word) (k : Nat) : Byte := v.extractLsb' (8 * k) 8

/-- A word's four bytes, lowest address first (R49). -/
def wordBytes (v : Word) : List Byte := [byteAt v 0, byteAt v 1, byteAt v 2, byteAt v 3]

/-- The word whose bytes at offsets 0 to 3 are given (R49). -/
def wordOf (b0 b1 b2 b3 : Byte) : Word := b3 ++ b2 ++ b1 ++ b0

end Sys2Proof.Machine
end

