-- ==== Sys2Proof/WellFormed.lean ====
section
/-! DEFINITION. Which terms of `Instr` are instructions of the block: the operand conditions of R81, R84, R87, R88, R89, as checks. -/

namespace Sys2Proof

/-- A dimension a 16-bit field can hold and a check lets pass: 1 to 65535 (R7, R111). -/
def okDim (n : Nat) : Bool := 1 ≤ n && n ≤ 65535

/-- Luma and chroma views of one source row: n from 1 to 65535 luma samples, ⌈n/2⌉ chroma samples in each plane
(R94), all three traversed in the direction `rtl` (R100). -/
def okViews (rtl : Bool) (lv uv vv : RowView) : Bool :=
  okDim lv.n && uv.n == (lv.n + 1) / 2 && vv.n == (lv.n + 1) / 2 &&
    lv.rtl == rtl && uv.rtl == rtl && vv.rtl == rtl

/-- The normalised width W' of a luma view (R96): negative when right to left. -/
def RowView.signedWidth (v : RowView) : Int := if v.rtl then -(v.n : Int) else v.n

/-- The operand conditions of each instruction. The commands have no operands and SAT takes every index (R78). DESIGN CHOICE
(log 25): the destination address of a row operation is any integer, a multiple of 4 or not, since R87 to R89 put no
condition on it; the engine itself forms only multiples of 4 (R50, R112). -/
def Instr.wf : Instr → Bool
  | .scale420Rot0 | .scale420Rot90 | .scale420Rot180 | .scale420Rot270
  | .scale420Mir0 | .scale420Mir90 | .scale420Mir180 | .scale420Mir270
  | .scale422Rot0 | .scale422Rot90 | .scale422Rot180 | .scale422Rot270
  | .scale422Mir0 | .scale422Mir90 | .scale422Mir180 | .scale422Mir270 => true
  | .sat _ => true
  | .yuvpixel _ _ _ => true
  | .rowIdent lv uv vv _ dw => okViews false lv uv vv && dw == lv.n
  | .rowGeneral lv uv vv _ dw dx =>
      okViews lv.rtl lv uv vv && okDim dw && dx == Machine.stepOf lv.signedWidth dw
  | .rowHalf lv uv vv _ dw => okViews false lv uv vv && 2 * dw == lv.n

end Sys2Proof
end

