-- ==== Sys2Proof/Decode.lean ====
section
/-! DEFINITION. The decoder of R70, total on every word and every list of bytes, and the encoder written from the field tables of R66 to R68. -/

namespace Sys2Proof

/-- OPC, bits 3:0 (R66). -/
def opcField (w : Word) : BitVec 4 := w.extractLsb' 0 4

/-- ROT, bits 6:4 (R66). -/
def rotField (w : Word) : BitVec 3 := w.extractLsb' 4 3

/-- RSVD, bits 31:7 (R66). -/
def rsvdField (w : Word) : BitVec 25 := w.extractLsb' 7 25

/-- Why a word is Illegal (R70, R109). -/
inductive DecodeError where
  /-- A bit of RSVD is set (R69). -/
  | reservedBits
  /-- OPC is neither 0x1 nor 0x2 (R67). -/
  | reservedOpc
  /-- Fewer than the four bytes of a command word (R65). -/
  | truncated
deriving DecidableEq, Repr

/-- The layout an OPC value names (R67). -/
def layoutOfOpc (opc : BitVec 4) : Option Layout :=
  if opc = 0x1#4 then some .l420 else if opc = 0x2#4 then some .l422 else none

/-- The rotation a ROT value names (R68). -/
def rotationOfRot (rot : BitVec 3) : Rotation :=
  if rot = 0#3 then .rot0
  else if rot = 1#3 then .rot90
  else if rot = 2#3 then .rot180
  else if rot = 3#3 then .rot270
  else if rot = 4#3 then .mir0
  else if rot = 5#3 then .mir90
  else if rot = 6#3 then .mir180
  else .mir270

/-- The command that a layout and a rotation name (R71). -/
def commandOf : Layout → Rotation → Instr
  | .l420, .rot0 => .scale420Rot0
  | .l420, .rot90 => .scale420Rot90
  | .l420, .rot180 => .scale420Rot180
  | .l420, .rot270 => .scale420Rot270
  | .l420, .mir0 => .scale420Mir0
  | .l420, .mir90 => .scale420Mir90
  | .l420, .mir180 => .scale420Mir180
  | .l420, .mir270 => .scale420Mir270
  | .l422, .rot0 => .scale422Rot0
  | .l422, .rot90 => .scale422Rot90
  | .l422, .rot180 => .scale422Rot180
  | .l422, .rot270 => .scale422Rot270
  | .l422, .mir0 => .scale422Mir0
  | .l422, .mir90 => .scale422Mir90
  | .l422, .mir180 => .scale422Mir180
  | .l422, .mir270 => .scale422Mir270

/-- The decoder of R70. `.error` is the spec's Illegal; the spec's UnsupportedRotation and Scale results are the
commands themselves, told apart by their rotation (log 21). -/
def decode (w : Word) : Except DecodeError Instr :=
  if rsvdField w ≠ 0 then .error .reservedBits
  else match layoutOfOpc (opcField w) with
    | none => .error .reservedOpc
    | some l => .ok (commandOf l (rotationOfRot (rotField w)))

/-- The decoder on bytes, lowest address first: a command word is four bytes, little-endian (R49, R65). -/
def decodeBytes : List Byte → Except DecodeError (Instr × List Byte)
  | b0 :: b1 :: b2 :: b3 :: rest =>
      match decode (Machine.wordOf b0 b1 b2 b3) with
      | .ok i => .ok (i, rest)
      | .error e => .error e
  | _ => .error .truncated

/-- The host's window on the decoder: the instruction whose bits are `w`, of which the table gives `nbits`; the bits
above are zero (log 21). -/
def decodeTableWord (nbits w : Nat) : Option Instr :=
  match decodeBytes (Machine.wordBytes (BitVec.ofNat 32 (w % 2 ^ nbits))) with
  | .ok (i, _) => some i
  | .error _ => none

/-- The OPC value of a layout (R67). -/
def opcBits : Layout → BitVec 4
  | .l420 => 0x1#4
  | .l422 => 0x2#4

/-- The ROT value of a rotation (R68). -/
def rotBits : Rotation → BitVec 3
  | .rot0 => 0#3
  | .rot90 => 1#3
  | .rot180 => 2#3
  | .rot270 => 3#3
  | .mir0 => 4#3
  | .mir90 => 5#3
  | .mir180 => 6#3
  | .mir270 => 7#3

/-- A command word from its fields: RSVD zero, ROT, OPC (R66, R69). -/
def commandWord (l : Layout) (r : Rotation) : Word := 0#25 ++ rotBits r ++ opcBits l

/-- The encoder. The internal operations have no encoding (R73). -/
def encode : Instr → Option Word
  | .scale420Rot0 => some (commandWord .l420 .rot0)
  | .scale420Rot90 => some (commandWord .l420 .rot90)
  | .scale420Rot180 => some (commandWord .l420 .rot180)
  | .scale420Rot270 => some (commandWord .l420 .rot270)
  | .scale420Mir0 => some (commandWord .l420 .mir0)
  | .scale420Mir90 => some (commandWord .l420 .mir90)
  | .scale420Mir180 => some (commandWord .l420 .mir180)
  | .scale420Mir270 => some (commandWord .l420 .mir270)
  | .scale422Rot0 => some (commandWord .l422 .rot0)
  | .scale422Rot90 => some (commandWord .l422 .rot90)
  | .scale422Rot180 => some (commandWord .l422 .rot180)
  | .scale422Rot270 => some (commandWord .l422 .rot270)
  | .scale422Mir0 => some (commandWord .l422 .mir0)
  | .scale422Mir90 => some (commandWord .l422 .mir90)
  | .scale422Mir180 => some (commandWord .l422 .mir180)
  | .scale422Mir270 => some (commandWord .l422 .mir270)
  | .sat _ => none
  | .yuvpixel _ _ _ => none
  | .rowIdent _ _ _ _ _ => none
  | .rowGeneral _ _ _ _ _ _ => none
  | .rowHalf _ _ _ _ _ => none

end Sys2Proof
end

