-- ==== Sys2Proof/Machine/Memory.lean ====
section
/-! DEFINITION. Memory as data: one byte read and written, words built from bytes in the order of R49, the canonical form, and the platform's regions (R52, R64). -/

namespace Sys2Proof.Machine

/-- What an address that memory does not list reads as (log 1, DESIGN CHOICE): the spec gives memory no contents. -/
def unlistedByte : Byte := 0

/-- One byte of memory. -/
def Memory.read : Memory → Nat → Byte
  | [], _ => unlistedByte
  | (b, v) :: m, a => if b = a then v else Memory.read m a

/-- Memory without any entry for an address. -/
def Memory.erase : Memory → Nat → Memory
  | [], _ => []
  | (b, v) :: m, a => if b = a then Memory.erase m a else (b, v) :: Memory.erase m a

/-- An entry put where the addresses keep rising. -/
def Memory.insert : Memory → Nat → Byte → Memory
  | [], a, v => [(a, v)]
  | (b, w) :: m, a, v => if a < b then (a, v) :: (b, w) :: m else (b, w) :: Memory.insert m a v

/-- One byte written; writing what an unlisted address reads as leaves the address unlisted. -/
def Memory.write (m : Memory) (a : Nat) (v : Byte) : Memory :=
  if v = unlistedByte then m.erase a else (m.erase a).insert a v

/-- The canonical form from an address on: addresses strictly rising and below 2^32, no entry that reads as unlisted. -/
def Memory.wfFrom : Nat → Memory → Bool
  | _, [] => true
  | lo, (a, v) :: m => lo ≤ a && a < 4294967296 && v != unlistedByte && Memory.wfFrom (a + 1) m

/-- The canonical form of memory. -/
def Memory.wf (m : Memory) : Bool := Memory.wfFrom 0 m

/-- The four bytes at `d` to `d + 3`, each address reduced modulo 2^32, as a little-endian word (R11, R49). -/
def Memory.readWord (m : Memory) (d : Int) : Word :=
  wordOf (m.read (addrOf d)) (m.read (addrOf (d + 1))) (m.read (addrOf (d + 2))) (m.read (addrOf (d + 3)))

/-- `MemWrite(d, 4, v)` on plain memory (R11, R49). -/
def Memory.writeWord (m : Memory) (d : Int) (v : Word) : Memory :=
  (((m.write (addrOf d) (byteAt v 0)).write (addrOf (d + 1)) (byteAt v 1)).write (addrOf (d + 2)) (byteAt v 2)).write
    (addrOf (d + 3)) (byteAt v 3)

/-- A region covers an address. -/
def Region.covers (r : Region) (a : Nat) : Bool := r.base ≤ a && a < r.base + r.size

/-- A region of a kind covers an address. -/
def regionHas (rs : List Region) (k : RegionKind) (a : Nat) : Bool := rs.any fun r => r.kind == k && r.covers a

/-- What the platform has at an address: `none` for ordinary memory. Side effects count before absence, so that the
answer does not depend on the order of the list. -/
def kindAt (rs : List Region) (a : Nat) : Option RegionKind :=
  if regionHas rs .sideEffect a then some .sideEffect
  else if regionHas rs .absent a then some .absent
  else none

/-- Why an access of the engine does not go through. -/
inductive Stop where
  /-- The platform does not complete it (R64). -/
  | notCompleted (addr : Nat)
  /-- It has side effects (R52). -/
  | sideEffect
deriving DecidableEq, Repr

/-- Whether an access of the engine to an address goes through (R52, R64). -/
def access (rs : List Region) (a : Nat) : Except Stop Unit :=
  match kindAt rs a with
  | none => .ok ()
  | some .absent => .error (.notCompleted a)
  | some .sideEffect => .error .sideEffect

/-- `MemRead(d, 1)` (R11, R47). -/
def memRead (rs : List Region) (m : Memory) (d : Int) : Except Stop Byte :=
  match access rs (addrOf d) with
  | .ok _ => .ok (m.read (addrOf d))
  | .error e => .error e

/-- Whether the platform completes a write of the four bytes of a pixel (R48, R51: the four land together). -/
def accessWord (rs : List Region) (d : Int) : Except Stop Unit :=
  match access rs (addrOf d), access rs (addrOf (d + 1)), access rs (addrOf (d + 2)), access rs (addrOf (d + 3)) with
  | .ok _, .ok _, .ok _, .ok _ => .ok ()
  | .error e, _, _, _ => .error e
  | _, .error e, _, _ => .error e
  | _, _, .error e, _ => .error e
  | _, _, _, .error e => .error e

/-- `MemWrite(d, 4, v)` (R11, R48). -/
def memWriteWord (rs : List Region) (m : Memory) (d : Int) (v : Word) : Except Stop Memory :=
  match accessWord rs d with
  | .ok _ => .ok (m.writeWord d v)
  | .error e => .error e

/-- A run of consecutive bytes after reduction modulo 2^32: first address and length. -/
structure Span where
  start : Nat
  len   : Nat
deriving DecidableEq, Repr

/-- The span that begins at an integer address (R43). -/
def spanAt (d : Int) (len : Nat) : Span := ⟨addrOf d, len⟩

/-- The distance from one address up to another, around 2^32 (R43). -/
def distUp (a b : Nat) : Nat := (b + 4294967296 - a) % 4294967296

/-- A span holds an address. -/
def Span.holds (i : Span) (a : Nat) : Bool := distUp i.start a < i.len

/-- Two spans share a byte: the first byte of one lies in the other (spans of one byte or more, below 2^32). -/
def Span.meets (i j : Span) : Bool := i.holds j.start || j.holds i.start

/-- Some span holds an address. -/
def spansHold (is : List Span) (a : Nat) : Bool := is.any fun i => i.holds a

/-- Some span of one list shares a byte with some span of the other. -/
def spansMeet (is js : List Span) : Bool := is.any fun i => js.any fun j => i.meets j

/-- Two different spans of one list share a byte. -/
def spansSelfMeet : List Span → Bool
  | [] => false
  | i :: is => is.any (fun j => i.meets j) || spansSelfMeet is

/-- A region with side effects shares a byte with a span (addresses below 2^32). The range is cut at 2^32. -/
def spanOnSideEffect (rs : List Region) (i : Span) : Bool :=
  rs.any fun r => r.kind == .sideEffect && r.size != 0 && r.base < 4294967296 &&
    i.meets ⟨r.base, min r.size (4294967296 - r.base)⟩

end Sys2Proof.Machine
end

