-- ==== Sys2Proof/Machine/Operands.lean ====
section
/-! DEFINITION. The operands of a command as R72 reads them from the argument registers, the geometry of R94 to R97, the row selection of R98 and R99, the row views of R100, the path of R102, and the sample and destination sets of R45 and R46. -/

namespace Sys2Proof.Machine

/-- W = zext_16(SRC_SIZE[15:0]) (R23, R72). -/
def Args.srcW (a : Args) : Nat := (a.srcSize.extractLsb' 0 16).toNat

/-- H = zext_16(SRC_SIZE[31:16]) (R23, R72). -/
def Args.srcH (a : Args) : Nat := (a.srcSize.extractLsb' 16 16).toNat

/-- DW = zext_16(DST_SIZE[15:0]) (R26, R72). -/
def Args.dstW (a : Args) : Nat := (a.dstSize.extractLsb' 0 16).toNat

/-- DH = zext_16(DST_SIZE[31:16]) (R26, R72). -/
def Args.dstH (a : Args) : Nat := (a.dstSize.extractLsb' 16 16).toNat

/-- A base register: zext_32 (R72). -/
def baseOf (v : Word) : Int := (v.toNat : Int)

/-- A stride register: sext_32 (R72). -/
def strideOf (v : Word) : Int := v.toInt

/-- CW = ⌈W/2⌉ in both layouts (R94). -/
def chromaW (w : Nat) : Nat := (w + 1) / 2

/-- CH = ⌈H/2⌉ for 4:2:0 and H for 4:2:2 (R94). -/
def chromaH : Layout → Nat → Nat
  | .l420, h => (h + 1) / 2
  | .l422, h => h

/-- Whether the source is read right to left: ROT 2, 3, 4, 5 (R95). -/
def rotRtl : Rotation → Bool
  | .rot0 => false
  | .rot90 => false
  | .rot180 => true
  | .rot270 => true
  | .mir0 => true
  | .mir90 => true
  | .mir180 => false
  | .mir270 => false

/-- Whether the source is read bottom to top: ROT 1, 2, 5, 6 (R95). -/
def rotBtt : Rotation → Bool
  | .rot0 => false
  | .rot90 => true
  | .rot180 => true
  | .rot270 => false
  | .mir0 => false
  | .mir90 => true
  | .mir180 => true
  | .mir270 => false

/-- The supported rotations: 0°, 180°, mirror-0°, mirror-180° (R68). -/
def rotSupported : Rotation → Bool
  | .rot0 => true
  | .rot90 => false
  | .rot180 => true
  | .rot270 => false
  | .mir0 => true
  | .mir90 => false
  | .mir180 => true
  | .mir270 => false

/-- One plane's origin after the horizontal and the vertical normalisation (R96, R97): `cols` and `rows` are the
plane's own size. -/
def originOf (rtl btt : Bool) (base stride : Int) (cols rows : Nat) : Int :=
  base + (if rtl then (cols : Int) - 1 else 0) + (if btt then ((rows : Int) - 1) * stride else 0)

/-- One plane's stride after the vertical normalisation (R97). -/
def strideFor (btt : Bool) (stride : Int) : Int := if btt then -stride else stride

/-- Step 1 of SCALE (R93, R96, R97). -/
def normalise (sn : Snapshot) : Normalised :=
  let a := sn.args
  let rtl := rotRtl sn.rotation
  let btt := rotBtt sn.rotation
  let cw := chromaW a.srcW
  let ch := chromaH sn.layout a.srcH
  { oY := originOf rtl btt (baseOf a.yBase) (strideOf a.yStride) a.srcW a.srcH
    oU := originOf rtl btt (baseOf a.uBase) (strideOf a.uStride) cw ch
    oV := originOf rtl btt (baseOf a.vBase) (strideOf a.vStride) cw ch
    sY := strideFor btt (strideOf a.yStride)
    sU := strideFor btt (strideOf a.uStride)
    sV := strideFor btt (strideOf a.vStride)
    wN := if rtl then -(a.srcW : Int) else a.srcW }

/-- The source row of a destination row: fdiv(y·H, DH) (R98). -/
def sourceRow (h dh y : Nat) : Nat := y * h / dh

/-- The chroma row of a source row: fdiv(s, 2) for 4:2:0, s for 4:2:2 (R99). -/
def chromaRow : Layout → Nat → Nat
  | .l420, s => s / 2
  | .l422, s => s

/-- The luma view of a destination row (R100). -/
def lumaView (sn : Snapshot) (g : Normalised) (y : Nat) : RowView where
  o := g.oY + (sourceRow sn.args.srcH sn.args.dstH y : Int) * g.sY
  n := sn.args.srcW
  rtl := rotRtl sn.rotation

/-- The U view of a destination row (R100). -/
def uView (sn : Snapshot) (g : Normalised) (y : Nat) : RowView where
  o := g.oU + (chromaRow sn.layout (sourceRow sn.args.srcH sn.args.dstH y) : Int) * g.sU
  n := chromaW sn.args.srcW
  rtl := rotRtl sn.rotation

/-- The V view of a destination row (R100). -/
def vView (sn : Snapshot) (g : Normalised) (y : Nat) : RowView where
  o := g.oV + (chromaRow sn.layout (sourceRow sn.args.srcH sn.args.dstH y) : Int) * g.sV
  n := chromaW sn.args.srcW
  rtl := rotRtl sn.rotation

/-- Where a destination row starts: DST_BASE + y·DST_STRIDE (R101). -/
def dstRow (a : Args) (y : Nat) : Int := baseOf a.dstBase + (y : Int) * strideOf a.dstStride

/-- Where a destination pixel starts: `+ 4·x` (R46, R101). -/
def dstPixel (a : Args) (y x : Nat) : Int := dstRow a y + 4 * (x : Int)

/-- The row operation of one destination row: the dispatcher of R102, with the step of R103. -/
def rowInstr (sn : Snapshot) (g : Normalised) (y : Nat) : Instr :=
  let dw := sn.args.dstW
  if (dw : Int) = g.wN then
    .rowIdent (lumaView sn g y) (uView sn g y) (vView sn g y) (dstRow sn.args y) dw
  else if 2 * (dw : Int) = g.wN then
    .rowHalf (lumaView sn g y) (uView sn g y) (vView sn g y) (dstRow sn.args y) dw
  else
    .rowGeneral (lumaView sn g y) (uView sn g y) (vView sn g y) (dstRow sn.args y) dw (stepOf g.wN dw)

/-- A plane's sample set, one span a row (R45). -/
def planeSpans (base stride : Int) (cols rows : Nat) : List Span :=
  (List.range rows).map fun (r : Nat) => spanAt (base + (r : Int) * stride) cols

/-- The three sample sets of a command (R45). -/
def sampleSpans (l : Layout) (a : Args) : List Span :=
  planeSpans (baseOf a.yBase) (strideOf a.yStride) a.srcW a.srcH ++
    (planeSpans (baseOf a.uBase) (strideOf a.uStride) (chromaW a.srcW) (chromaH l a.srcH) ++
      planeSpans (baseOf a.vBase) (strideOf a.vStride) (chromaW a.srcW) (chromaH l a.srcH))

/-- The destination set of a command, one span a row (R46). -/
def dstSpans (a : Args) : List Span := planeSpans (baseOf a.dstBase) (strideOf a.dstStride) (4 * a.dstW) a.dstH

end Sys2Proof.Machine
end

