-- ==== Sys2Proof/Machine/Ops.lean ====
section
/-! DEFINITION. The shared operations on the state: registers read and written (R16, R38, R39), issuing a command (R108), rejecting it (R114), accepting it (R115) and completing it (R104). -/

namespace Sys2Proof.Machine

/-- The registers of R16, by name. -/
inductive Reg where
  | cmd
  | status
  | yBase
  | uBase
  | vBase
  | yStride
  | uStride
  | vStride
  | srcSize
  | dstBase
  | dstStride
  | dstSize
  /-- Offsets 0x30 to 0x3C (R33). -/
  | reserved
deriving DecidableEq, Repr

/-- The register at a word offset of the window (R16). -/
def regAt (off : BitVec 6) : Reg :=
  if off = 0x00#6 then .cmd
  else if off = 0x04#6 then .status
  else if off = 0x08#6 then .yBase
  else if off = 0x0C#6 then .uBase
  else if off = 0x10#6 then .vBase
  else if off = 0x14#6 then .yStride
  else if off = 0x18#6 then .uStride
  else if off = 0x1C#6 then .vStride
  else if off = 0x20#6 then .srcSize
  else if off = 0x24#6 then .dstBase
  else if off = 0x28#6 then .dstStride
  else if off = 0x2C#6 then .dstSize
  else .reserved

/-- The value a register reads as (R27, R28, R33, R38). -/
def readReg (s : State) : Reg → Word
  | .cmd => s.cmd
  | .status => statusWord s
  | .yBase => s.args.yBase
  | .uBase => s.args.uBase
  | .vBase => s.args.vBase
  | .yStride => s.args.yStride
  | .uStride => s.args.uStride
  | .vStride => s.args.vStride
  | .srcSize => s.args.srcSize
  | .dstBase => s.args.dstBase
  | .dstStride => s.args.dstStride
  | .dstSize => s.args.dstSize
  | .reserved => 0

/-- The argument registers after one of them takes a value (R39); no other register is an argument register. -/
def Args.set (a : Args) (r : Reg) (v : Word) : Args :=
  match r with
  | .cmd | .status | .reserved => a
  | .yBase => { a with yBase := v }
  | .uBase => { a with uBase := v }
  | .vBase => { a with vBase := v }
  | .yStride => { a with yStride := v }
  | .uStride => { a with uStride := v }
  | .vStride => { a with vStride := v }
  | .srcSize => { a with srcSize := v }
  | .dstBase => { a with dstBase := v }
  | .dstStride => { a with dstStride := v }
  | .dstSize => { a with dstSize := v }

/-- A host write to an argument register (R39): taken while IDLE, dropped with OVERRUN while BUSY. -/
def writeArg (r : Reg) (v : Word) (s : State) : State :=
  match s.phase with
  | .idle => { s with args := s.args.set r v }
  | .busy _ => setOverrun s

/-- The first lines of `issue` (R108): store the word in CMD, clear DONE, OVERRUN and ERR. -/
def beginIssue (w : Word) (s : State) : State :=
  { s with cmd := w, done := false, overrun := false, err := .none }

/-- Rejecting a command (R114), the block's one way of reporting an error (R118). -/
def reject (c : ErrorCode) (s : State) : State := { s with err := c }

/-- Checks 3 to 5 of R108 on the argument registers (R111, R112, R113), in their order. -/
def argError (a : Args) : Option ErrorCode :=
  if a.srcW = 0 ∨ a.srcH = 0 ∨ a.dstW = 0 ∨ a.dstH = 0 then some .zeroDimension
  else if a.dstBase.extractLsb' 0 2 ≠ 0 ∨ a.dstStride.extractLsb' 0 2 ≠ 0 then some .dstMisaligned
  else if 1 < a.dstH ∧ (strideOf a.dstStride).natAbs < 4 * a.dstW then some .dstRowOverlap
  else none

/-- The host duties of R130 that a command's acceptance can show broken; a model refuses such a run (R52, R54, R55, R57;
log 11). DESIGN CHOICE (log 26): the host's buffers have no extent here, so planes in smaller buffers than R94 derives
break no duty of this list and the engine reads the derived bytes, as R117 says; 93 U3 would refuse that run. DESIGN
CHOICE (log 27): of the posted host writes not yet performed only those to a sample byte break a duty, as R130 (1) names
the source planes; one to a destination byte does not, though 93 S11 speaks of all host memory writes. -/
def dutyBroken (l : Layout) (s : State) : Option Refusal :=
  if spansMeet (dstSpans s.args) (sampleSpans l s.args) then some .destinationOverlapsSamples
  else if spansSelfMeet (dstSpans s.args) then some .destinationOverlapsItself
  else if (dstSpans s.args ++ sampleSpans l s.args).any (spanOnSideEffect s.regions) then some .sideEffectMemory
  else if s.posted.any (fun p => spansHold (sampleSpans l s.args) p.1.toNat) then some .hostWriteNotPerformed
  else none

/-- The engine as acceptance starts it (R35, R36, R115). -/
def startEngine (sn : Snapshot) (m : Memory) : Engine where
  snap := sn
  norm := normalise sn
  pending := List.range sn.args.dstH
  stuck := false
  before := m

/-- Accepting a command (R115): the phase becomes BUSY with the snapshot of R35. -/
def accept (l : Layout) (r : Rotation) (s : State) : State :=
  { s with phase := .busy (startEngine ⟨l, r, s.args⟩ s.mem) }

/-- Completion (R104): BUSY to 0 and DONE to 1 together; nothing else changes. -/
def complete (s : State) : State := { s with phase := .idle, done := true }

/-- Issuing the word of a supported command (R108): dropped while BUSY (R39), else the argument checks, then rejection or
acceptance. -/
def issueScale (l : Layout) (r : Rotation) (s : State) : Host.Outcome State Fault Refusal :=
  match s.phase with
  | .busy _ => .next (setOverrun s)
  | .idle =>
    match argError s.args with
    | some c => .next (reject c (beginIssue (commandWord l r) s))
    | none =>
      match dutyBroken l s with
      | some why => .refused why
      | none => .next (accept l r (beginIssue (commandWord l r) s))

/-- Issuing a word that the decoder or the rotation check rejects (R108 to R110): dropped while BUSY (R39). -/
def issueRejected (w : Word) (c : ErrorCode) (s : State) : Host.Outcome State Fault Refusal :=
  match s.phase with
  | .busy _ => .next (setOverrun s)
  | .idle => .next (reject c (beginIssue w s))

end Sys2Proof.Machine
end

