-- ==== Sys2Proof/Machine/Commands.lean ====
section
/-! DEFINITION. The sixteen commands (R91, R92, R110): what issuing each command word does. The conversion itself is the engine's, row by row (Machine/Engine.lean). -/

namespace Sys2Proof.Machine

/-- SCALE420.ROT0 (R91): issued with the checks of R108, accepted by R115. -/
def execScale420Rot0 (s : State) : Host.Outcome State Fault Refusal := issueScale .l420 .rot0 s

/-- SCALE420.ROT90 (R110): rejected with code 2 before the argument checks. -/
def execScale420Rot90 (s : State) : Host.Outcome State Fault Refusal :=
  issueRejected (commandWord .l420 .rot90) .unsupportedRotation s

/-- SCALE420.ROT180 (R91): issued with the checks of R108, accepted by R115. -/
def execScale420Rot180 (s : State) : Host.Outcome State Fault Refusal := issueScale .l420 .rot180 s

/-- SCALE420.ROT270 (R110): rejected with code 2 before the argument checks. -/
def execScale420Rot270 (s : State) : Host.Outcome State Fault Refusal :=
  issueRejected (commandWord .l420 .rot270) .unsupportedRotation s

/-- SCALE420.MIR0 (R91): issued with the checks of R108, accepted by R115. -/
def execScale420Mir0 (s : State) : Host.Outcome State Fault Refusal := issueScale .l420 .mir0 s

/-- SCALE420.MIR90 (R110): rejected with code 2 before the argument checks. -/
def execScale420Mir90 (s : State) : Host.Outcome State Fault Refusal :=
  issueRejected (commandWord .l420 .mir90) .unsupportedRotation s

/-- SCALE420.MIR180 (R91): issued with the checks of R108, accepted by R115. -/
def execScale420Mir180 (s : State) : Host.Outcome State Fault Refusal := issueScale .l420 .mir180 s

/-- SCALE420.MIR270 (R110): rejected with code 2 before the argument checks. -/
def execScale420Mir270 (s : State) : Host.Outcome State Fault Refusal :=
  issueRejected (commandWord .l420 .mir270) .unsupportedRotation s

/-- SCALE422.ROT0 (R92): issued with the checks of R108, accepted by R115. -/
def execScale422Rot0 (s : State) : Host.Outcome State Fault Refusal := issueScale .l422 .rot0 s

/-- SCALE422.ROT90 (R110): rejected with code 2 before the argument checks. -/
def execScale422Rot90 (s : State) : Host.Outcome State Fault Refusal :=
  issueRejected (commandWord .l422 .rot90) .unsupportedRotation s

/-- SCALE422.ROT180 (R92): issued with the checks of R108, accepted by R115. -/
def execScale422Rot180 (s : State) : Host.Outcome State Fault Refusal := issueScale .l422 .rot180 s

/-- SCALE422.ROT270 (R110): rejected with code 2 before the argument checks. -/
def execScale422Rot270 (s : State) : Host.Outcome State Fault Refusal :=
  issueRejected (commandWord .l422 .rot270) .unsupportedRotation s

/-- SCALE422.MIR0 (R92): issued with the checks of R108, accepted by R115. -/
def execScale422Mir0 (s : State) : Host.Outcome State Fault Refusal := issueScale .l422 .mir0 s

/-- SCALE422.MIR90 (R110): rejected with code 2 before the argument checks. -/
def execScale422Mir90 (s : State) : Host.Outcome State Fault Refusal :=
  issueRejected (commandWord .l422 .mir90) .unsupportedRotation s

/-- SCALE422.MIR180 (R92): issued with the checks of R108, accepted by R115. -/
def execScale422Mir180 (s : State) : Host.Outcome State Fault Refusal := issueScale .l422 .mir180 s

/-- SCALE422.MIR270 (R110): rejected with code 2 before the argument checks. -/
def execScale422Mir270 (s : State) : Host.Outcome State Fault Refusal :=
  issueRejected (commandWord .l422 .mir270) .unsupportedRotation s

end Sys2Proof.Machine
end

