-- ==== Sys2Proof/Machine/Saturation.lean ====
section
/-! DEFINITION. The saturation table and its two operations (R77, R78, R79). -/

namespace Sys2Proof.Machine

/-- The read-only memory of R77: the entry at address `j` (0 to 511) holds clamp(j - 128, 0, 255). -/
def rom (j : Nat) : Byte := BitVec.ofInt 8 (clamp ((j : Int) - 128) 0 255)

/-- SAT (R78): the index saturates to the table's extent. -/
def sat (i : Int) : Byte := rom (clamp i (-128) 383 + 128).toNat

/-- clip (R79): the index is the floor of v / 256. -/
def clip (v : Int) : Byte := sat (asr v 8)

/-- SAT executed alone (R73, R78): its result goes to `satOut` (log 9). -/
def execSat (i : Int) (s : State) : Host.Outcome State Fault Refusal := .next { s with satOut := sat i }

end Sys2Proof.Machine
end

