-- ==== Sys2Proof/Machine/Colour.lean ====
section
/-! DEFINITION. The colour transform, the packing and the luma blend (R84, R85, R86). The coefficients are named constants, as 92 D40 asks. -/

namespace Sys2Proof.Machine

/-- The luma gain of R84. -/
def coefY : Int := 298

/-- The U gain of the blue channel (R84). -/
def coefBU : Int := 516

/-- The U gain of the green channel (R84). -/
def coefGU : Int := -100

/-- The V gain of the green channel (R84). -/
def coefGV : Int := -208

/-- The V gain of the red channel (R84). -/
def coefRV : Int := 409

/-- The luma offset of R84. -/
def offsetY : Int := 16

/-- The chroma offset of R84. -/
def offsetC : Int := 128

/-- The bias that R84 adds to the luma term and to each chroma term (90 C1). -/
def bias : Int := 128

/-- Alpha is always 255 (R7, R84). -/
def alpha : Byte := 255

/-- A sample as an unsigned integer (R47). -/
def sampleInt (b : Byte) : Int := (b.toNat : Int)

/-- The luma term Yp of R84. -/
def lumaTerm (y : Byte) : Int := (sampleInt y - offsetY) * coefY + bias

/-- The blue chroma term cb of R84. -/
def blueTerm (u : Byte) : Int := coefBU * (sampleInt u - offsetC) + bias

/-- The green chroma term cg of R84. -/
def greenTerm (u v : Byte) : Int := coefGU * (sampleInt u - offsetC) + coefGV * (sampleInt v - offsetC) + bias

/-- The red chroma term cr of R84. -/
def redTerm (v : Byte) : Int := coefRV * (sampleInt v - offsetC) + bias

/-- YUVPIXEL (R84). -/
def yuvPixel (y u v : Byte) : Pixel where
  b := clip (lumaTerm y + blueTerm u)
  g := clip (lumaTerm y + greenTerm u v)
  r := clip (lumaTerm y + redTerm v)
  a := alpha

/-- PACK (R85): B in bits 7:0, G in 15:8, R in 23:16, A in 31:24. -/
def pack (p : Pixel) : Word := p.a ++ p.r ++ p.g ++ p.b

/-- The weight of the current sample in quarters (R86). -/
def weightCurrent (f : Nat) : Int := 4 - (f : Int)

/-- The weight of the next sample in quarters (R86). -/
def weightNext (f : Nat) : Int := (f : Int)

/-- BLEND (R86): the floor of the weighted mean; the phase is 0 to 3. -/
def blend (f : Nat) (y0 y1 : Byte) : Byte :=
  BitVec.ofInt 8 (asr (weightCurrent f * sampleInt y0 + weightNext f * sampleInt y1) 2)

/-- YUVPIXEL executed alone (R73, R84): its result goes to `pixelOut` (log 9). -/
def execYuvpixel (y u v : Byte) (s : State) : Host.Outcome State Fault Refusal :=
  .next { s with pixelOut := yuvPixel y u v }

end Sys2Proof.Machine
end

