-- ==== Sys2Proof/Machine/Rows.lean ====
section
/-! DEFINITION. The sample fetch, the chroma sampler and the three row operations (R81 to R83, R87 to R89). -/

namespace Sys2Proof.Machine

/-- The index FETCH uses: clamped into the row (R82). -/
def fetchIndex (vw : RowView) (k : Int) : Int :=
  if vw.rtl then clamp k (-((vw.n : Int) - 1)) 0 else clamp k 0 ((vw.n : Int) - 1)

/-- FETCH (R82): one sample through a view. -/
def fetch (rs : List Region) (m : Memory) (vw : RowView) (k : Int) : Except Stop Byte :=
  memRead rs m (vw.o + fetchIndex vw k)

/-- The chroma index at a luma position (R83). -/
def chromaIndex (p : Int) : Int := asr p 5

/-- The integer luma index at a position (R88). -/
def lumaIndex (p : Int) : Int := asr p 4

/-- The blend phase at a position: bits 3:2 of p (R88). -/
def phaseOf (p : Int) : Nat := (asr p 2 % 4).toNat

/-- One pixel of ROW.IDENT (R87): the packed word of destination column `x`. -/
def identPixel (rs : List Region) (lv uv vv : RowView) (m : Memory) (x : Nat) : Except Stop Word := do
  let y ← fetch rs m lv x
  let u ← fetch rs m uv (asr x 1)
  let v ← fetch rs m vv (asr x 1)
  pure (pack (yuvPixel y u v))

/-- One pixel of ROW.HALF (R89). -/
def halfPixel (rs : List Region) (lv uv vv : RowView) (m : Memory) (x : Nat) : Except Stop Word := do
  let y0 ← fetch rs m lv (2 * (x : Int))
  let y1 ← fetch rs m lv (2 * (x : Int) + 1)
  let u ← fetch rs m uv x
  let v ← fetch rs m vv x
  pure (pack (yuvPixel (BitVec.ofInt 8 (asr (sampleInt y0 + sampleInt y1) 1)) u v))

/-- One pixel of the general path (R88) at the running position `p`. DESIGN CHOICE (log 28): it makes every read that the
pseudocode makes, that of the next sample at phase 0 among them, whose weight is zero; where the platform does not
complete one of them the row does not go on, though 93 S5 and R135 let an implementation leave such a read out. -/
def generalPixelAt (rs : List Region) (lv uv vv : RowView) (m : Memory) (p : Int) : Except Stop Word := do
  let y0 ← fetch rs m lv (lumaIndex p)
  let y1 ← fetch rs m lv (lumaIndex p + 1)
  let u ← fetch rs m uv (chromaIndex p)
  let v ← fetch rs m vv (chromaIndex p)
  pure (pack (yuvPixel (blend (phaseOf p) y0 y1) u v))

/-- One pixel of ROW.GENERAL (R88): destination column `x` is at the running position p = x·dx. -/
def generalPixel (rs : List Region) (lv uv vv : RowView) (dx : Int) (m : Memory) (x : Nat) : Except Stop Word :=
  generalPixelAt rs lv uv vv m ((x : Int) * dx)

/-- The loop over the destination columns that R87, R88 and R89 share: `n` columns from column `x` on. Each column
computes its pixel from memory as it stands and writes it at d + 4·x. -/
def rowLoop (rs : List Region) (pix : Memory → Nat → Except Stop Word) (d : Int) :
    Nat → Nat → Memory → Except Stop Memory
  | 0, _, m => .ok m
  | n + 1, x, m =>
    match pix m x with
    | .error e => .error e
    | .ok v =>
      match memWriteWord rs m (d + 4 * (x : Int)) v with
      | .error e => .error e
      | .ok m' => rowLoop rs pix d n (x + 1) m'

/-- A row operation's outcome: memory changes and nothing else (no row operation writes a flag). An access the platform
does not complete is a fault (R64, log 3), one with side effects a refusal (R52). -/
def runRow (pix : Memory → Nat → Except Stop Word) (d : Int) (dw : Nat) (s : State) :
    Host.Outcome State Fault Refusal :=
  match rowLoop s.regions pix d dw 0 s.mem with
  | .ok m => .next { s with mem := m }
  | .error (.notCompleted a) => .fault (.accessNotCompleted a)
  | .error .sideEffect => .refused .sideEffectMemory

/-- ROW.IDENT (R87). -/
def execRowIdent (lv uv vv : RowView) (d : Int) (dw : Nat) (s : State) : Host.Outcome State Fault Refusal :=
  runRow (identPixel s.regions lv uv vv) d dw s

/-- ROW.GENERAL (R88). -/
def execRowGeneral (lv uv vv : RowView) (d : Int) (dw : Nat) (dx : Int) (s : State) :
    Host.Outcome State Fault Refusal :=
  runRow (generalPixel s.regions lv uv vv dx) d dw s

/-- ROW.HALF (R89). -/
def execRowHalf (lv uv vv : RowView) (d : Int) (dw : Nat) (s : State) : Host.Outcome State Fault Refusal :=
  runRow (halfPixel s.regions lv uv vv) d dw s

end Sys2Proof.Machine
end

