-- ==== Sys2Proof/Machine/Dispatch.lean ====
section
/-! DEFINITION. One arm per constructor of Instr, each one direct call of its meaning. -/

namespace Sys2Proof.Machine

def exec (i : Instr) (s : State) : Host.Outcome State Fault Refusal :=
  match i with
  | .scale420Rot0 => Sys2Proof.Machine.execScale420Rot0 s
  | .scale420Rot90 => Sys2Proof.Machine.execScale420Rot90 s
  | .scale420Rot180 => Sys2Proof.Machine.execScale420Rot180 s
  | .scale420Rot270 => Sys2Proof.Machine.execScale420Rot270 s
  | .scale420Mir0 => Sys2Proof.Machine.execScale420Mir0 s
  | .scale420Mir90 => Sys2Proof.Machine.execScale420Mir90 s
  | .scale420Mir180 => Sys2Proof.Machine.execScale420Mir180 s
  | .scale420Mir270 => Sys2Proof.Machine.execScale420Mir270 s
  | .scale422Rot0 => Sys2Proof.Machine.execScale422Rot0 s
  | .scale422Rot90 => Sys2Proof.Machine.execScale422Rot90 s
  | .scale422Rot180 => Sys2Proof.Machine.execScale422Rot180 s
  | .scale422Rot270 => Sys2Proof.Machine.execScale422Rot270 s
  | .scale422Mir0 => Sys2Proof.Machine.execScale422Mir0 s
  | .scale422Mir90 => Sys2Proof.Machine.execScale422Mir90 s
  | .scale422Mir180 => Sys2Proof.Machine.execScale422Mir180 s
  | .scale422Mir270 => Sys2Proof.Machine.execScale422Mir270 s
  | .sat idx => Sys2Proof.Machine.execSat idx s
  | .yuvpixel y u v => Sys2Proof.Machine.execYuvpixel y u v s
  | .rowIdent lv uv vv d dw => Sys2Proof.Machine.execRowIdent lv uv vv d dw s
  | .rowGeneral lv uv vv d dw dx => Sys2Proof.Machine.execRowGeneral lv uv vv d dw dx s
  | .rowHalf lv uv vv d dw => Sys2Proof.Machine.execRowHalf lv uv vv d dw s

end Sys2Proof.Machine
end

