-- ==== Sys2Proof/Machine/Engine.lean ====
section
/-! DEFINITION. The engine's turn (R93, R104): one row operation of the command in progress, or its completion; and what the command writes to a destination pixel, for reads and a reset while BUSY (R127, R132). -/

namespace Sys2Proof.Machine

/-- The row that a turn takes: any of the pending rows (R56, R124). -/
def pickIndex (pick : Nat) (pending : List Nat) : Nat := pick % pending.length

/-- The state after a row operation of the engine has run: that row is no longer pending. -/
def rowDone (e : Engine) (j : Nat) (s : State) : State :=
  { s with phase := .busy { e with pending := e.pending.eraseIdx j } }

/-- The state once the platform has not completed an access of the engine (R64, R116): the engine is stuck, and nothing
else changes. -/
def engineStuck (e : Engine) (s : State) : State := { s with phase := .busy { e with stuck := true } }

/-- One engine step (R120, 92 D31). While IDLE the engine does nothing (R126). A stuck engine makes no
further progress, at any row (R64, R116, 93 S8). With every row produced it completes (R104). Otherwise it executes the
row operation of one pending row (R93, R102); where the platform does not complete an access, that row stays pending and
the engine is stuck, so BUSY stays 1 (log 3). -/
def engineTurn (pick : Nat) (s : State) : Host.Outcome State Fault Refusal :=
  match s.phase with
  | .idle => .next s
  | .busy e =>
    if e.stuck then .next s
    else
      match e.pending[pickIndex pick e.pending]? with
      | none => .next (complete s)
      | some y =>
        match exec (rowInstr e.snap e.norm y) s with
        | .next s' => .next (rowDone e (pickIndex pick e.pending) s')
        | .fault _ => .next (engineStuck e s)
        | .refused why => .refused why

/-- The pixel an internal row operation computes for a destination column; `none` for an instruction that is no row
operation. -/
def rowPixel (rs : List Region) (m : Memory) (x : Nat) : Instr → Option (Except Stop Word)
  | .rowIdent lv uv vv _ _ => some (identPixel rs lv uv vv m x)
  | .rowGeneral lv uv vv _ _ dx => some (generalPixel rs lv uv vv dx m x)
  | .rowHalf lv uv vv _ _ => some (halfPixel rs lv uv vv m x)
  | _ => none

/-- The word that the command in progress writes to destination pixel (y, x), computed from memory as it was when the
command was accepted (R59 (1)); `none` where the platform does not complete an access that this takes (R64). -/
def newPixel (rs : List Region) (e : Engine) (y x : Nat) : Option Word :=
  match rowPixel rs e.before x (rowInstr e.snap e.norm y), accessWord rs (dstPixel e.snap.args y x) with
  | some (.ok v), .ok _ => some v
  | _, _ => none

end Sys2Proof.Machine
end

