-- ==== Sys2Proof/Machine/HostPort.lean ====
section
/-! DEFINITION. What the host and the platform can do: register accesses (R38 to R40), memory accesses (R57 to R59, R130, R132), the reset input (R127), and one event (R120). -/

namespace Sys2Proof.Machine

/-- An aligned 32-bit access to the register window (R40), judged by its first byte's offset and its size (log 14). -/
def alignedWord (off : BitVec 6) (size : Nat) : Bool := size == 4 && off.extractLsb' 0 2 == 0

/-- A host write to CMD (R27, R39, R108): the word's command is issued; an illegal word is rejected with code 1 (R109). -/
def writeCmd (w : Word) (s : State) : Host.Outcome State Fault Refusal :=
  match decode w with
  | .ok i => exec i s
  | .error _ => issueRejected w .illegalCommand s

/-- A host register write (R39, R40). -/
def hostRegWrite (off : BitVec 6) (size : Nat) (v : Word) (s : State) : Host.Outcome State Fault Refusal :=
  if alignedWord off size then
    match regAt off with
    | .status => .next s
    | .reserved => .next s
    | .cmd => writeCmd v s
    | r => .next (writeArg r v s)
  else .refused .registerAccessNotAlignedWord

/-- A host register read (R38, R40): the answer goes to the host; nothing of the block changes. -/
def hostRegRead (off : BitVec 6) (size : Nat) (s : State) : Host.Outcome State Fault Refusal :=
  if alignedWord off size then .next { s with busData := wordBytes (readReg s (regAt off)) }
  else .refused .registerAccessNotAlignedWord

/-- The offset in the register window of the first byte of a bus access (R16, log 13). -/
def windowOffset (addr : Nat) : Option (BitVec 6) :=
  if Config.regBase ≤ addr ∧ addr < Config.regBase + 64 then some (BitVec.ofNat 6 (addr - Config.regBase)) else none

/-- A bus access of `size` bytes that begins below the register window and reaches into it. It is an access to the window
that is no aligned 32-bit access of it, so it is refused as R40 says (log 13). -/
def runsIntoWindow (addr size : Nat) : Bool := addr < Config.regBase && Config.regBase < addr + size

/-- A bus access that does not begin in the window: refused when it runs into it (R40), else no access to this block
(log 13). -/
def hostBusElsewhere (addr size : Nat) (s : State) : Host.Outcome State Fault Refusal :=
  if runsIntoWindow addr size then .refused .registerAccessNotAlignedWord else .next s

/-- A host write at a bus address (R16, R40): one that begins in the window is the register write at its offset. -/
def hostBusWrite (addr size : Nat) (v : Word) (s : State) : Host.Outcome State Fault Refusal :=
  match windowOffset addr with
  | some off => hostRegWrite off size v s
  | none => hostBusElsewhere addr size s

/-- A host read at a bus address (R16, R40): one that begins in the window is the register read at its offset. -/
def hostBusRead (addr size : Nat) (s : State) : Host.Outcome State Fault Refusal :=
  match windowOffset addr with
  | some off => hostRegRead off size s
  | none => hostBusElsewhere addr size s

/-- The sample sets and the destination set of the command in progress hold an address (R130 (2)). -/
def commandHolds (e : Engine) (a : Nat) : Bool :=
  spansHold (dstSpans e.snap.args) a || spansHold (sampleSpans e.snap.layout e.snap.args) a

/-- A posted write performed: one byte of ordinary memory changes (log 10). While BUSY no byte of the command's sets may
be written (R130 (2)). -/
def performWrite (a : Nat) (v : Byte) (s : State) : Host.Outcome State Fault Refusal :=
  match kindAt s.regions a with
  | some _ => .refused .hostAccessNotMemory
  | none =>
    match s.phase with
    | .idle => .next { s with mem := s.mem.write a v }
    | .busy e =>
      if commandHolds e a then .refused .hostWriteDuringCommand else .next { s with mem := s.mem.write a v }

/-- The platform performs the oldest posted write (R57). -/
def hostDrain (s : State) : Host.Outcome State Fault Refusal :=
  match s.posted with
  | [] => .next s
  | (a, v) :: rest => performWrite a.toNat v { s with posted := rest }

/-- The destination pixel that holds an address, as row and byte offset in the row (R46). -/
def dstByteAt (a : Args) (addr : Nat) : Option (Nat × Nat) :=
  match (List.range a.dstH).find? (fun y => (spanAt (dstRow a y) (4 * a.dstW)).holds addr) with
  | some y => some (y, distUp (addrOf (dstRow a y)) addr)
  | none => none

/-- What a host read of one byte returns (R58, R59, R132). While BUSY a destination byte is old or new, chosen freely per
read and per pixel, so that the four bytes of a pixel are old together or new together (R51; log 5). -/
def hostByte (s : State) (a : Nat) : Byte :=
  match s.phase with
  | .idle => s.mem.read a
  | .busy e =>
    match dstByteAt e.snap.args a with
    | none => s.mem.read a
    | some (y, k) =>
      match newPixel s.regions e y (k / 4) with
      | none => e.before.read a
      | some v =>
        if Config.seesNew s.nonce (addrOf (dstPixel e.snap.args y (k / 4))) then byteAt v (k % 4)
        else e.before.read a

/-- The addresses of a host memory read: `count` bytes from `a` on. DESIGN CHOICE (log 29): a read that runs past 0xFFFFFFFF
goes on at address 0; R43 wraps the engine's addresses, and the spec does not speak of the host's. -/
def readAddrs (a : BitVec 32) (count : Nat) : List Nat := (List.range count).map fun (k : Nat) => addrOf ((a.toNat : Int) + (k : Int))

/-- A host read of memory (R58, R59). -/
def hostMemRead (a : BitVec 32) (count : Nat) (s : State) : Host.Outcome State Fault Refusal :=
  if (readAddrs a count).all (fun b => (kindAt s.regions b).isNone) then
    .next { s with busData := (readAddrs a count).map (hostByte s), nonce := s.nonce + 1 }
  else .refused .hostAccessNotMemory

/-- What a reset during a command leaves in one destination pixel (R127): its old bytes or, chosen freely, the word the
command would write (log 6). -/
def resetPixel (s : State) (e : Engine) (y x : Nat) (m : Memory) : Memory :=
  match newPixel s.regions e y x with
  | none => m.writeWord (dstPixel e.snap.args y x) (e.before.readWord (dstPixel e.snap.args y x))
  | some v =>
    if Config.resetLeavesNew s.nonce (addrOf (dstPixel e.snap.args y x)) then m.writeWord (dstPixel e.snap.args y x) v
    else m.writeWord (dstPixel e.snap.args y x) (e.before.readWord (dstPixel e.snap.args y x))

/-- What a reset during a command leaves in one destination row, its first `n` pixels. -/
def resetRow (s : State) (e : Engine) (y : Nat) : Nat → Memory → Memory
  | 0, m => m
  | n + 1, m => resetPixel s e y n (resetRow s e y n m)

/-- What a reset during a command leaves in the first `n` destination rows. -/
def resetRows (s : State) (e : Engine) : Nat → Memory → Memory
  | 0, m => m
  | n + 1, m => resetRow s e n e.snap.args.dstW (resetRows s e n m)

/-- Memory after the reset input (R127): unchanged while IDLE; during a command each destination pixel is old or new. -/
def resetMem (s : State) : Memory :=
  match s.phase with
  | .idle => s.mem
  | .busy e => resetRows s e e.snap.args.dstH s.mem

/-- The reset input (R127, R128): every register at its reset value, the phase IDLE, the engine's hidden state
discarded. Memory, the host and the platform are not reset. -/
def resetInput (s : State) : State :=
  { State.reset with
    mem := resetMem s
    busData := s.busData
    posted := s.posted
    regions := s.regions
    inputs := s.inputs
    nonce := s.nonce + 1 }

/-- One event (R120). -/
def act (ev : Input) (s : State) : Host.Outcome State Fault Refusal :=
  match ev with
  | .regWrite off size v => hostRegWrite off size v s
  | .regRead off size => hostRegRead off size s
  | .busWrite addr size v => hostBusWrite addr size v s
  | .busRead addr size => hostBusRead addr size s
  | .memWrite a v => .next { s with posted := s.posted ++ [(a, v)] }
  | .memDrain => hostDrain s
  | .memRead a count => hostMemRead a count s
  | .engine pick => engineTurn pick s
  | .reset => .next (resetInput s)

/-- The next event and the state without it: the oldest coming event, or, when none is listed, a turn of the engine
(R126, R135; log 7). -/
def nextEvent (s : State) : Input × State :=
  match s.inputs with
  | [] => (.engine 0, s)
  | ev :: rest => (ev, { s with inputs := rest })

/-- The host's write of a command word to CMD as the very next event, with the phase IDLE so that it is not dropped
(R27, R39; log 8). -/
def placeCommand (w : Word) (s : State) : State :=
  { s with inputs := .regWrite 0x00#6 4 w :: s.inputs, phase := .idle }

end Sys2Proof.Machine
end

