-- ==== Sys2Proof/Safety.lean ====
section
/-! DEFINITION. The terms that claims use: the bytes a row operation may touch, the frame of memory, the reference value of a destination pixel in absolute coordinates (R105), and the invariant of the machine. -/

namespace Sys2Proof.Machine

/-- The lowest sample address of a row view, as an integer (R81). -/
def viewStart (vw : RowView) : Int := if vw.rtl then vw.o - ((vw.n : Int) - 1) else vw.o

/-- The samples of a row view: its `n` bytes (R81). -/
def viewSpan (vw : RowView) : Span := spanAt (viewStart vw) vw.n

/-- The bytes of a destination row (R46). -/
def rowSpan (d : Int) (dw : Nat) : Span := spanAt d (4 * dw)

/-- Every byte of a span, at its address below 2^32, is ordinary memory (R43, R52, R64). -/
def Ordinary (rs : List Region) (i : Span) : Prop :=
  ∀ a, a < 4294967296 → i.holds a = true → kindAt rs a = none

/-- No address below 2^32 lies in both spans (R55). -/
def Apart (i j : Span) : Prop := ∀ a, a < 4294967296 → i.holds a = true → j.holds a = false

/-- A view that has a sample and fits the address space (R81, R23). -/
def ViewOk (vw : RowView) : Prop := 1 ≤ vw.n ∧ vw.n ≤ 4294967296

/-- Two memories agree on the samples of a view. -/
def AgreeOn (m m' : Memory) (vw : RowView) : Prop := ∀ a, (viewSpan vw).holds a = true → m.read a = m'.read a

/-- A row operation can run to its end, on these views and this destination row: every sample and every destination
byte is ordinary memory (R52, R64), and the destination row shares no byte with the samples (R55). -/
def RowReady (rs : List Region) (lv uv vv : RowView) (d : Int) (dw : Nat) : Prop :=
  (Ordinary rs (viewSpan lv) ∧ Ordinary rs (viewSpan uv) ∧ Ordinary rs (viewSpan vv) ∧ Ordinary rs (rowSpan d dw)) ∧
    Apart (rowSpan d dw) (viewSpan lv) ∧ Apart (rowSpan d dw) (viewSpan uv) ∧ Apart (rowSpan d dw) (viewSpan vv)

/-- The sample of a view at a signed index that lies in the row (R81). -/
def sampleAt (m : Memory) (vw : RowView) (k : Int) : Byte := m.read (addrOf (vw.o + k))

/-- The index FETCH reads at, as the nearest index of the row (R82). -/
def nearestIndex (vw : RowView) (k : Int) : Int :=
  if vw.rtl then max (-((vw.n : Int) - 1)) (min k 0) else max 0 (min k ((vw.n : Int) - 1))

/-- An integer clamped to a channel byte: the end values and the identity of R80. -/
def channel (v : Int) : Byte := BitVec.ofInt 8 (max 0 (min v 255))

/-- The sample of a plane at a row and a column (R45). -/
def planeSample (m : Memory) (base stride : Int) (r c : Int) : Byte := m.read (addrOf (base + r * stride + c))

/-- A row counted from the top: the traversal's row `s` of a plane with `rows` rows (R105). -/
def absRow (btt : Bool) (rows s : Nat) : Int := if btt then (rows : Int) - 1 - s else s

/-- A column counted from the left: the traversal's index `k` in a row of `cols` samples (R105). -/
def absCol (rtl : Bool) (cols : Nat) (k : Int) : Int :=
  if rtl then (cols : Int) - 1 + max (-((cols : Int) - 1)) (min k 0) else max 0 (min k ((cols : Int) - 1))

/-- The luma sample that destination row `y` of a command takes at traversal index `k` (R98, R105). -/
def refLuma (sn : Snapshot) (m : Memory) (y : Nat) (k : Int) : Byte :=
  let a := sn.args
  planeSample m (baseOf a.yBase) (strideOf a.yStride)
    (absRow (rotBtt sn.rotation) a.srcH (y * a.srcH / a.dstH)) (absCol (rotRtl sn.rotation) a.srcW k)

/-- The chroma sample of a plane that destination row `y` of a command takes at traversal index `k` (R99, R105). -/
def refChroma (sn : Snapshot) (m : Memory) (base stride : Word) (y : Nat) (k : Int) : Byte :=
  let a := sn.args
  planeSample m (baseOf base) (strideOf stride)
    (absRow (rotBtt sn.rotation) (chromaH sn.layout a.srcH) (chromaRow sn.layout (y * a.srcH / a.dstH)))
    (absCol (rotRtl sn.rotation) (chromaW a.srcW) k)

/-- The word that a command writes to destination pixel (y, x), in absolute source coordinates (R84, R85, R87, R88, R89,
R102, R105): no row view, no normalised origin and no engine takes part in it. -/
def refPixel (sn : Snapshot) (m : Memory) (y x : Nat) : Word :=
  let a := sn.args
  let u := refChroma sn m a.uBase a.uStride y
  let v := refChroma sn m a.vBase a.vStride y
  let luma := refLuma sn m y
  if rotRtl sn.rotation = false ∧ a.dstW = a.srcW then
    pack (yuvPixel (luma x) (u (asr x 1)) (v (asr x 1)))
  else if rotRtl sn.rotation = false ∧ 2 * a.dstW = a.srcW then
    pack (yuvPixel (BitVec.ofInt 8 (asr (sampleInt (luma (2 * (x : Int))) + sampleInt (luma (2 * (x : Int) + 1))) 1))
      (u x) (v x))
  else
    let p := (x : Int) * (if rotRtl sn.rotation then -tdiv (16 * a.srcW) a.dstW else tdiv (16 * a.srcW) a.dstW)
    pack (yuvPixel (blend (phaseOf p) (luma (asr p 4)) (luma (asr p 4 + 1))) (u (asr p 5)) (v (asr p 5)))

/-- The destination set and the sample sets of a command lie apart, and the destination does not overlap itself (R55). -/
def setsApart (l : Layout) (a : Args) : Prop :=
  spansMeet (dstSpans a) (sampleSpans l a) = false ∧ spansSelfMeet (dstSpans a) = false

/-- What holds of a command in progress. Its snapshot is what the registers and CMD hold (R35, R39); it passed the checks
(R108) and keeps the duties of R55; the normalised geometry is that of R96 and R97; the pending rows are rows of the
destination, none twice, and a stuck engine has one (R64); the samples are as they were at acceptance (R59 (1)); a pending row still holds its old bytes;
and every pixel of a row no longer pending holds the word the command writes (R54). -/
def EngineInv (s : State) (e : Engine) : Prop :=
  (s.done = false ∧ s.err = .none ∧ e.snap.args = s.args ∧ s.cmd = commandWord e.snap.layout e.snap.rotation ∧
    rotSupported e.snap.rotation = true ∧ argError s.args = none ∧ setsApart e.snap.layout s.args ∧
    e.norm = normalise e.snap ∧ e.before.wf = true) ∧
  (e.pending.Nodup ∧ (∀ y ∈ e.pending, y < s.args.dstH) ∧ (e.stuck = true → e.pending ≠ [])) ∧
  (∀ a, spansHold (sampleSpans e.snap.layout s.args) a = true → s.mem.read a = e.before.read a) ∧
  (∀ y ∈ e.pending, ∀ a, (rowSpan (dstRow s.args y) s.args.dstW).holds a = true → s.mem.read a = e.before.read a) ∧
  (∀ y, y < s.args.dstH → y ∉ e.pending → ∀ x, x < s.args.dstW →
    newPixel s.regions e y x = some (s.mem.readWord (dstPixel s.args y x)))

/-- The invariant of the machine: memory in canonical form; while IDLE, DONE excludes an error (R30, R32); while BUSY,
what holds of a command in progress. -/
def State.Inv (s : State) : Prop :=
  s.mem.wf = true ∧
    match s.phase with
    | .idle => s.done = true → s.err = .none
    | .busy e => EngineInv s e

/-- The sixteen words of R71 with the commands they decode to. -/
def commandTable : List (Word × Instr) :=
  [(0x00000001#32, .scale420Rot0), (0x00000021#32, .scale420Rot180), (0x00000041#32, .scale420Mir0),
    (0x00000061#32, .scale420Mir180), (0x00000002#32, .scale422Rot0), (0x00000022#32, .scale422Rot180),
    (0x00000042#32, .scale422Mir0), (0x00000062#32, .scale422Mir180)] ++
  [(0x00000011#32, .scale420Rot90), (0x00000031#32, .scale420Rot270), (0x00000051#32, .scale420Mir90),
    (0x00000071#32, .scale420Mir270), (0x00000012#32, .scale422Rot90), (0x00000032#32, .scale422Rot270),
    (0x00000052#32, .scale422Mir90), (0x00000072#32, .scale422Mir270)]

/-- A state after a command word was stored in CMD and rejected with a code (R108, R114). -/
def rejected (w : Word) (c : ErrorCode) (s : State) : State :=
  { s with cmd := w, done := false, overrun := false, err := c }

/-- A state after a supported command was accepted (R108, R115): BUSY, with the snapshot of the registers (R35), every
destination row to be produced, and the memory the command starts from. -/
def accepted (l : Layout) (r : Rotation) (s : State) : State :=
  { s with
    cmd := commandWord l r
    done := false
    overrun := false
    err := .none
    phase := .busy
      { snap := ⟨l, r, s.args⟩, norm := normalise ⟨l, r, s.args⟩, pending := List.range s.args.dstH, stuck := false,
        before := s.mem } }

/-- The host keeps the duties that acceptance can show broken: the sets share no byte and the destination does not meet
itself (R55), no byte of them has side effects (R52), and no host write to a sample is still to be performed (R57). -/
def DutiesKept (l : Layout) (s : State) : Prop :=
  setsApart l s.args ∧
    (∀ a, a < 4294967296 → (spansHold (dstSpans s.args) a || spansHold (sampleSpans l s.args) a) = true →
      regionHas s.regions .sideEffect a = false) ∧
    ∀ p ∈ s.posted, spansHold (sampleSpans l s.args) p.1.toNat = false

/-- Every dimension is at least 1, the destination is aligned and its rows do not share bytes: the checks of R111, R112
and R113 on the register bits themselves. -/
def ArgsPass (a : Args) : Prop :=
  (a.srcSize.toNat % 65536 ≠ 0 ∧ a.srcSize.toNat / 65536 ≠ 0 ∧ a.dstSize.toNat % 65536 ≠ 0 ∧
    a.dstSize.toNat / 65536 ≠ 0) ∧
  (a.dstBase.toNat % 4 = 0 ∧ a.dstStride.toNat % 4 = 0) ∧
  (a.dstSize.toNat / 65536 = 1 ∨ 4 * (a.dstSize.toNat % 65536) ≤ a.dstStride.toInt.natAbs)

/-- The offset of CMD or of an argument register: a register that a host write can change (R39). -/
def TakesWrite (off : BitVec 6) : Prop := off.toNat % 4 = 0 ∧ regAt off ≠ .status ∧ regAt off ≠ .reserved

/-- The next event is an aligned 32-bit host write of `v` at an offset of the register window, in either of the forms an
event gives it (R16, R39), and `rest` comes after it. -/
def WritesRegister (s : State) (off : BitVec 6) (v : Word) (rest : List Input) : Prop :=
  s.inputs = .regWrite off 4 v :: rest ∨ s.inputs = .busWrite (Config.regBase + off.toNat) 4 v :: rest

/-- The samples that a row operation reads for destination column `x`, as integer addresses: those of R87 for ROW.IDENT,
of R89 for ROW.HALF, and of R88 with R82 and R83 for ROW.GENERAL. -/
def sampleReads (i : Instr) (x : Nat) : List Int :=
  match i with
  | .rowIdent lv uv vv _ _ => [lv.o + (x : Int), uv.o + ((x / 2 : Nat) : Int), vv.o + ((x / 2 : Nat) : Int)]
  | .rowHalf lv uv vv _ _ => [lv.o + 2 * (x : Int), lv.o + (2 * (x : Int) + 1), uv.o + (x : Int), vv.o + (x : Int)]
  | .rowGeneral lv uv vv _ _ dx =>
    let p := (x : Int) * dx
    [lv.o + nearestIndex lv (p / 16), lv.o + nearestIndex lv (p / 16 + 1), uv.o + nearestIndex uv (p / 32),
      vv.o + nearestIndex vv (p / 32)]
  | _ => []

/-- The inputs that give the engine one turn for each pick (log 7). -/
def engineTurns (picks : List Nat) : List Input := picks.map .engine

end Sys2Proof.Machine
end

