-- ==== Sys2Proof/Certificates/Slice0/Obligations.lean ====
section
/-! DEFINITION. The statements for the provers. Each docstring names the rule of the spec that the statement formalises or rests on. -/

open Sys2Proof Sys2Proof.Machine

/-- R71: exactly the sixteen words of its table decode, each to the command it names, and every other word is Illegal; the
first eight are the table's Scale results, the last eight its UnsupportedRotation results. -/
def Obligations.SixteenWordsDecode : Prop :=
  (∀ (w : Word) (i : Instr), decode w = .ok i ↔ (w, i) ∈ commandTable) ∧
    ∀ (l : Layout) (r : Rotation), (commandWord l r, commandOf l r) ∈ commandTable.take 8 ↔ rotSupported r = true

/-- R65, R66, R70: an instruction's word, laid out as four bytes, decodes to the instruction and leaves the bytes after it;
and only its own word does. No bit of an encoding is dropped. -/
def Obligations.DecodeBytesIffEncode : Prop :=
  ∀ (i : Instr) (w : Word) (rest : List Byte),
    encode i = some w ↔ decodeBytes (wordBytes w ++ rest) = .ok (i, rest)

/-- R67 to R71 on single words (sanity): four commands, and three words that are Illegal. -/
def Obligations.SampleWordsDecode : Prop :=
  (decode 0x00000001#32 = .ok .scale420Rot0 ∧ decode 0x00000062#32 = .ok .scale422Mir180 ∧
    decode 0x00000031#32 = .ok .scale420Rot270 ∧ decode 0x00000012#32 = .ok .scale422Rot90) ∧
  decode 0x00000000#32 = .error .reservedOpc ∧ decode 0x00000081#32 = .error .reservedBits ∧
    decode 0x00000013#32 = .error .reservedOpc

/-- R128: after reset every register reads 0x00000000 and the phase is IDLE. -/
def Obligations.ResetRegistersReadZero : Prop :=
  (∀ r : Reg, readReg State.reset r = 0) ∧ State.reset.phase = .idle

/-- R127: the reset input puts every register at 0 and the phase at IDLE; while IDLE memory is unchanged; during a command
each destination pixel holds its old four bytes or the four the command would write, and no other byte changes. Which
of the two is a free value (log 6). -/
def Obligations.ResetInputAbandonsCommand : Prop :=
  ∀ s : State, s.Inv → ∃ t, act .reset s = .next t ∧
    ((∀ r : Reg, readReg t r = 0) ∧ t.phase = .idle) ∧
    (s.phase = .idle → t.mem = s.mem) ∧
    ∀ e, s.phase = .busy e →
      (∀ y x, y < e.snap.args.dstH → x < e.snap.args.dstW →
        t.mem.readWord (dstPixel e.snap.args y x) = e.before.readWord (dstPixel e.snap.args y x) ∨
          newPixel s.regions e y x = some (t.mem.readWord (dstPixel e.snap.args y x))) ∧
      ∀ a, spansHold (dstSpans e.snap.args) a = false → t.mem.read a = s.mem.read a

/-- R28: the fields of STATUS, that a write to it has no effect, that reading it has none, and its reset value. -/
def Obligations.StatusRegister : Prop :=
  (∀ s : State,
    ((statusWord s).getLsbD 0 = s.phase.isBusy ∧ (statusWord s).getLsbD 1 = s.done ∧
      (statusWord s).getLsbD 2 = s.overrun ∧ (statusWord s).getLsbD 3 = false ∧
      (statusWord s).extractLsb' 4 4 = s.err.code ∧ (statusWord s).extractLsb' 8 24 = 0) ∧
    (∀ v, act (.regWrite 0x04#6 4 v) s = .next s) ∧
    act (.regRead 0x04#6 4) s = .next { s with busData := wordBytes (statusWord s) }) ∧
  statusWord State.reset = 0

/-- R38 with the map of R16: what a host read returns at each offset; nothing else changes. -/
def Obligations.RegisterReads : Prop :=
  ∀ (s : State) (off : BitVec 6) (v : Word),
    (off, v) ∈ [(0x00#6, s.cmd), (0x04#6, statusWord s), (0x08#6, s.args.yBase), (0x0C#6, s.args.uBase),
      (0x10#6, s.args.vBase), (0x14#6, s.args.yStride), (0x18#6, s.args.uStride), (0x1C#6, s.args.vStride),
      (0x20#6, s.args.srcSize), (0x24#6, s.args.dstBase), (0x28#6, s.args.dstStride), (0x2C#6, s.args.dstSize),
      (0x30#6, 0#32), (0x34#6, 0#32), (0x38#6, 0#32), (0x3C#6, 0#32)] →
    act (.regRead off 4) s = .next { s with busData := wordBytes v }

/-- R39: the four cases of an aligned host write. STATUS and the reserved offsets ignore it; a CMD write while IDLE stores
the word and issues its command (R27), or rejects an illegal one with code 1; an argument register while IDLE takes the
word, all 32 bits, and no other register changes; while BUSY the write is dropped and OVERRUN is set. -/
def Obligations.RegisterWrites : Prop :=
  ∀ (s : State) (off : BitVec 6) (v : Word), off.toNat % 4 = 0 →
    ((regAt off = .status ∨ regAt off = .reserved) → act (.regWrite off 4 v) s = .next s) ∧
    (regAt off = .cmd → s.phase = .idle →
      (∀ i, decode v = .ok i → act (.regWrite off 4 v) s = exec i s) ∧
      (∀ err, decode v = .error err → act (.regWrite off 4 v) s = .next (rejected v .illegalCommand s)) ∧
      ∀ t, act (.regWrite off 4 v) s = .next t → t.cmd = v) ∧
    (regAt off ≠ .cmd → regAt off ≠ .status → regAt off ≠ .reserved → s.phase = .idle →
      ∃ a, act (.regWrite off 4 v) s = .next { s with args := a } ∧ readReg { s with args := a } (regAt off) = v ∧
        ∀ r, r ≠ regAt off → readReg { s with args := a } r = readReg s r) ∧
    (regAt off ≠ .status → regAt off ≠ .reserved → ∀ e, s.phase = .busy e →
      act (.regWrite off 4 v) s = .next { s with overrun := true })

/-- R40: a register access of another size, or at an offset that is no multiple of 4, is refused. -/
def Obligations.UnalignedRegisterAccessRefused : Prop :=
  ∀ (s : State) (off : BitVec 6) (size : Nat) (v : Word), size ≠ 4 ∨ off.toNat % 4 ≠ 0 →
    act (.regWrite off size v) s = .refused .registerAccessNotAlignedWord ∧
      act (.regRead off size) s = .refused .registerAccessNotAlignedWord

/-- R7, R16, R40: REG_BASE is a multiple of 64, whatever it is, and the window is the 64 bytes from it on. An access that
begins inside is the register access at its offset; one that begins below and reaches into the window is refused, as R40
says; one with no byte in the window reaches nothing of the block (the last two as log 13 says, the last its DESIGN
CHOICE). -/
def Obligations.RegisterWindow : Prop :=
  Config.regBase % 64 = 0 ∧
    (∀ (s : State) (off : BitVec 6) (size : Nat) (v : Word),
      act (.busWrite (Config.regBase + off.toNat) size v) s = act (.regWrite off size v) s ∧
        act (.busRead (Config.regBase + off.toNat) size) s = act (.regRead off size) s) ∧
    (∀ (s : State) (addr size : Nat) (v : Word), addr < Config.regBase → Config.regBase < addr + size →
      act (.busWrite addr size v) s = .refused .registerAccessNotAlignedWord ∧
        act (.busRead addr size) s = .refused .registerAccessNotAlignedWord) ∧
    ∀ (s : State) (addr size : Nat) (v : Word),
      (addr < Config.regBase ∧ addr + size ≤ Config.regBase) ∨ Config.regBase + 64 ≤ addr →
      act (.busWrite addr size v) s = .next s ∧ act (.busRead addr size) s = .next s

/-- R27, R108 (a step runs the decoded instruction): when the next event is a write of `w` to CMD and `w` decodes to `i`,
the step is `exec i` on the state without the event. -/
def Obligations.StepRunsTheCommandWritten : Prop :=
  ∀ (s : State) (w : Word) (i : Instr) (rest : List Input), s.inputs = .regWrite 0x00#6 4 w :: rest →
    decode w = .ok i → i.wf = true ∧ step s = exec i { s with inputs := rest }

/-- The placing of a command (log 8, the model's choice): a legal word placed as the next event is decoded and executed by the
very next step. -/
def Obligations.PlacedCommandRuns : Prop :=
  ∀ (s : State) (w : Word) (i : Instr), decode w = .ok i →
    decodeTableWord 32 w.toNat = some i ∧ step (s.withFetchWord 32 w.toNat) = exec i { s with phase := .idle }

/-- A step runs the row operation. That a row takes the operation `rowInstr` is R93 and R102; all else here is the MODEL'S
CHOICE: one turn of the engine executes the whole operation of the pending row its pick chooses, which is then no longer
pending (log 4, DESIGN CHOICE); a turn after the last listed event takes the first pending row (log 7, DESIGN CHOICE);
and where the operation faults the engine is stuck and nothing else changes, the model's reading of R64 and R116 (log 3,
DEDUCED). -/
def Obligations.StepRunsTheRowOperation : Prop :=
  ∀ (s u : State) (e : Engine) (pick y : Nat),
    (s.inputs = .engine pick :: u.inputs ∨ (s.inputs = [] ∧ u.inputs = [] ∧ pick = 0)) →
    u = { s with inputs := u.inputs } → s.phase = .busy e → e.stuck = false → e.pending[pick % e.pending.length]? = some y →
    (∀ t, exec (rowInstr e.snap e.norm y) u = .next t →
      step s = .next { t with phase := .busy { e with pending := e.pending.eraseIdx (pick % e.pending.length) } }) ∧
    (∀ f, exec (rowInstr e.snap e.norm y) u = .fault f → step s = .next { u with phase := .busy { e with stuck := true } }) ∧
    (∀ why, exec (rowInstr e.snap e.norm y) u = .refused why → step s = .refused why)

/-- R109: a word with a bit of 31:7 set, or an OPC other than 0x1 and 0x2, written to CMD while IDLE is rejected with code 1,
whatever ROT and the arguments are; nothing else changes (R114). Writing 0x00000000 is such a write. -/
def Obligations.IllegalWordRejected : Prop :=
  (∀ (s : State) (w : Word), s.phase = .idle →
    (w.toNat / 128 ≠ 0 ∨ (w.toNat % 16 ≠ 1 ∧ w.toNat % 16 ≠ 2)) →
    act (.regWrite 0x00#6 4 w) s = .next (rejected w .illegalCommand s)) ∧
  ∀ s : State, s.phase = .idle → act (.regWrite 0x00#6 4 0) s = .next (rejected 0 .illegalCommand s)

/-- R110: while IDLE the eight commands with ROT 1, 3, 5 or 7 (SCALE420 and SCALE422 .ROT90, .ROT270, .MIR90, .MIR270) are
rejected with code 2, whatever the arguments; nothing else changes (R114). -/
def Obligations.UnsupportedRotationRejected : Prop :=
  ∀ (s : State) (i : Instr) (w : Word), s.phase = .idle →
    i ∈ [Instr.scale420Rot90, .scale420Rot270, .scale420Mir90, .scale420Mir270, .scale422Rot90, .scale422Rot270,
      .scale422Mir90, .scale422Mir270] →
    encode i = some w → exec i s = .next (rejected w .unsupportedRotation s)

/-- R111, R112, R113: on the eight supported commands, the argument checks in their order, on the register bits; the first
that fails gives the code, and nothing else changes (R114); where none fails, a next state can only be the accepted one
(with DH = 1 any stride passes). -/
def Obligations.ArgumentChecksInOrder : Prop :=
  ∀ (s : State) (l : Layout) (r : Rotation), s.phase = .idle → rotSupported r = true →
    let w := s.args.srcSize.toNat % 65536
    let h := s.args.srcSize.toNat / 65536
    let dw := s.args.dstSize.toNat % 65536
    let dh := s.args.dstSize.toNat / 65536
    ((w = 0 ∨ h = 0 ∨ dw = 0 ∨ dh = 0) →
      exec (commandOf l r) s = .next (rejected (commandWord l r) .zeroDimension s)) ∧
    ((w ≠ 0 ∧ h ≠ 0 ∧ dw ≠ 0 ∧ dh ≠ 0) →
      (s.args.dstBase.toNat % 4 ≠ 0 ∨ s.args.dstStride.toNat % 4 ≠ 0) →
      exec (commandOf l r) s = .next (rejected (commandWord l r) .dstMisaligned s)) ∧
    ((w ≠ 0 ∧ h ≠ 0 ∧ dw ≠ 0 ∧ dh ≠ 0) →
      (s.args.dstBase.toNat % 4 = 0 ∧ s.args.dstStride.toNat % 4 = 0) →
      (1 < dh ∧ s.args.dstStride.toInt.natAbs < 4 * dw) →
      exec (commandOf l r) s = .next (rejected (commandWord l r) .dstRowOverlap s)) ∧
    ((w ≠ 0 ∧ h ≠ 0 ∧ dw ≠ 0 ∧ dh ≠ 0) →
      (s.args.dstBase.toNat % 4 = 0 ∧ s.args.dstStride.toNat % 4 = 0) →
      (1 < dh → 4 * dw ≤ s.args.dstStride.toInt.natAbs) →
      ∀ t, exec (commandOf l r) s = .next t → t = accepted l r s)

/-- R115 (completion of the eight supported commands): while IDLE, with arguments that pass the checks and duties that are
kept, SCALE420 and SCALE422 .ROT0, .ROT180, .MIR0 and .MIR180 are accepted: the phase becomes BUSY with the snapshot;
nothing else changes but CMD and the flags that issuing clears (R108). -/
def Obligations.SupportedCommandAccepted : Prop :=
  ∀ (s : State) (l : Layout) (r : Rotation), s.phase = .idle → rotSupported r = true → ArgsPass s.args →
    DutiesKept l s → exec (commandOf l r) s = .next (accepted l r s)

/-- A supported command that passes its checks is refused when a byte of the destination set is a byte of a sample set, and
when two different destination rows share a byte modulo 2^32. R55 says that a model refuses such a command; that the CMD
write itself is refused, after the checks of R108, and a shared sample byte before a self-overlap, is the model's choice
(log 11, DESIGN CHOICE). -/
def Obligations.OverlappingCommandRefused : Prop :=
  ∀ (s : State) (l : Layout) (r : Rotation), s.phase = .idle → rotSupported r = true → ArgsPass s.args →
    ((∃ a, a < 4294967296 ∧ spansHold (dstSpans s.args) a = true ∧ spansHold (sampleSpans l s.args) a = true) →
      exec (commandOf l r) s = .refused .destinationOverlapsSamples) ∧
    ((∀ a, a < 4294967296 → spansHold (dstSpans s.args) a = true → spansHold (sampleSpans l s.args) a = false) →
      (∃ y y' a, y < y' ∧ y' < s.args.dstH ∧ a < 4294967296 ∧
        (rowSpan (dstRow s.args y) s.args.dstW).holds a = true ∧
        (rowSpan (dstRow s.args y') s.args.dstW).holds a = true) →
      exec (commandOf l r) s = .refused .destinationOverlapsItself)

/-- R52, R57, R130 (1): a supported command that passes its checks and whose sets lie apart is refused when a byte of a set
has side effects, and, when none has, when a host write to a sample is still to be performed. -/
def Obligations.OtherBrokenDutiesRefused : Prop :=
  ∀ (s : State) (l : Layout) (r : Rotation), s.phase = .idle → rotSupported r = true → ArgsPass s.args →
    setsApart l s.args →
    ((∃ a, a < 4294967296 ∧ (spansHold (dstSpans s.args) a || spansHold (sampleSpans l s.args) a) = true ∧
        regionHas s.regions .sideEffect a = true) →
      exec (commandOf l r) s = .refused .sideEffectMemory) ∧
    ((∀ a, a < 4294967296 → (spansHold (dstSpans s.args) a || spansHold (sampleSpans l s.args) a) = true →
        regionHas s.regions .sideEffect a = false) →
      (∃ p ∈ s.posted, spansHold (sampleSpans l s.args) p.1.toNat = true) →
      exec (commandOf l r) s = .refused .hostWriteNotPerformed)

/-- R39: each of the sixteen commands, issued while BUSY, is dropped: OVERRUN is set and nothing else changes. -/
def Obligations.CommandWhileBusyDropped : Prop :=
  ∀ (s : State) (e : Engine) (l : Layout) (r : Rotation), s.phase = .busy e →
    exec (commandOf l r) s = .next { s with overrun := true }

/-- R77: the 512 entries of the saturation table. -/
def Obligations.RomContents : Prop :=
  (∀ j, j ≤ 128 → rom j = 0) ∧ (∀ k, k ≤ 255 → rom (128 + k) = BitVec.ofNat 8 k) ∧
    ∀ j, 383 ≤ j → j ≤ 511 → rom j = 255

/-- R78 (completion of SAT): on every integer index SAT reads the entry at the index saturated to the table's extent, which
is the index clamped to a byte; nothing but the result changes. -/
def Obligations.SatClampsEveryIndex : Prop :=
  ∀ (s : State) (i : Int),
    exec (.sat i) s = .next { s with satOut := channel i } ∧
      channel i = rom (max (-128) (min i 383) + 128).toNat

/-- R80: the table and clip are monotone, with end values 0 and 255. -/
def Obligations.SaturationMonotone : Prop :=
  (∀ i : Int, (sat i).toNat ≤ (sat (i + 1)).toNat ∧ (i ≤ 0 → sat i = 0) ∧ (255 ≤ i → sat i = 255)) ∧
    ∀ v : Int, (clip v).toNat ≤ (clip (v + 1)).toNat

/-- R84 (completion of YUVPIXEL): each channel is the floor of the biased sum over 256, clamped; alpha is 255; nothing but
the result changes. -/
def Obligations.YuvpixelComputesChannels : Prop :=
  ∀ (s : State) (y u v : Byte),
    let yp := 298 * ((y.toNat : Int) - 16)
    let d := (u.toNat : Int) - 128
    let e := (v.toNat : Int) - 128
    exec (.yuvpixel y u v) s = .next { s with pixelOut :=
      { b := channel ((yp + 516 * d + 256) / 256)
        g := channel ((yp - 100 * d - 208 * e + 256) / 256)
        r := channel ((yp + 409 * e + 256) / 256)
        a := 255 } }

/-- R49, R85, R43: a packed pixel is stored B, G, R, A at increasing addresses modulo 2^32, it reads back, and every other
byte of memory is as before. -/
def Obligations.PixelStoredLittleEndian : Prop :=
  ∀ (m : Memory) (d : Int) (p : Pixel),
    ((m.writeWord d (pack p)).read (addrOf d) = p.b ∧ (m.writeWord d (pack p)).read (addrOf (d + 1)) = p.g ∧
      (m.writeWord d (pack p)).read (addrOf (d + 2)) = p.r ∧ (m.writeWord d (pack p)).read (addrOf (d + 3)) = p.a) ∧
    (m.writeWord d (pack p)).readWord d = pack p ∧
    ∀ a, a ≠ addrOf d → a ≠ addrOf (d + 1) → a ≠ addrOf (d + 2) → a ≠ addrOf (d + 3) →
      (m.writeWord d (pack p)).read a = m.read a

/-- R86: the blend is the floor of the weighted mean with weights 4 - f and f quarters; phase 0 gives the current sample. -/
def Obligations.BlendIsWeightedFloor : Prop :=
  ∀ (f : Nat) (y0 y1 : Byte), f < 4 →
    (blend f y0 y1).toNat = ((4 - f) * y0.toNat + f * y1.toNat) / 4 ∧ blend 0 y0 y1 = y0

/-- R87 (completion of ROW.IDENT): pixel x is the colour of luma sample x and chroma sample x/2, taken from memory as it was
before the row; no other byte and nothing else of the state changes. -/
def Obligations.RowIdentWritesPixels : Prop :=
  ∀ (s : State) (lv uv vv : RowView) (d : Int) (dw : Nat), (Instr.rowIdent lv uv vv d dw).wf = true →
    RowReady s.regions lv uv vv d dw →
    ∃ m, exec (.rowIdent lv uv vv d dw) s = .next { s with mem := m } ∧
      (∀ x : Nat, x < dw → m.readWord (d + 4 * (x : Int)) =
        pack (yuvPixel (sampleAt s.mem lv (x : Int)) (sampleAt s.mem uv ((x / 2 : Nat) : Int))
          (sampleAt s.mem vv ((x / 2 : Nat) : Int)))) ∧
      ∀ a, (rowSpan d dw).holds a = false → m.read a = s.mem.read a

/-- R89 (completion of ROW.HALF): pixel x is the colour of the floored average of luma samples 2x and 2x + 1 and of chroma
sample x, taken from memory as it was before the row; no other byte and nothing else of the state changes. -/
def Obligations.RowHalfWritesPixels : Prop :=
  ∀ (s : State) (lv uv vv : RowView) (d : Int) (dw : Nat), (Instr.rowHalf lv uv vv d dw).wf = true →
    RowReady s.regions lv uv vv d dw →
    ∃ m, exec (.rowHalf lv uv vv d dw) s = .next { s with mem := m } ∧
      (∀ x : Nat, x < dw → m.readWord (d + 4 * (x : Int)) =
        pack (yuvPixel
          (BitVec.ofNat 8 (((sampleAt s.mem lv (2 * (x : Int))).toNat + (sampleAt s.mem lv (2 * (x : Int) + 1)).toNat) / 2))
          (sampleAt s.mem uv (x : Int)) (sampleAt s.mem vv (x : Int)))) ∧
      ∀ a, (rowSpan d dw).holds a = false → m.read a = s.mem.read a

/-- R88, R82, R83 (completion of ROW.GENERAL): at position p = x·dx, pixel x blends the luma samples at ⌊p/16⌋ and the next
index with the phase in bits 3:2 of p, and takes the chroma samples at ⌊p/32⌋, every index clamped into its row; all
from memory as it was before the row; no other byte and nothing else of the state changes. -/
def Obligations.RowGeneralWritesPixels : Prop :=
  ∀ (s : State) (lv uv vv : RowView) (d : Int) (dw : Nat) (dx : Int),
    (Instr.rowGeneral lv uv vv d dw dx).wf = true → RowReady s.regions lv uv vv d dw →
    ∃ m, exec (.rowGeneral lv uv vv d dw dx) s = .next { s with mem := m } ∧
      (∀ x : Nat, x < dw →
        let p := (x : Int) * dx
        let f := (p / 4 % 4).toNat
        let y0 := sampleAt s.mem lv (nearestIndex lv (p / 16))
        let y1 := sampleAt s.mem lv (nearestIndex lv (p / 16 + 1))
        m.readWord (d + 4 * (x : Int)) =
          pack (yuvPixel (BitVec.ofNat 8 (((4 - f) * y0.toNat + f * y1.toNat) / 4))
            (sampleAt s.mem uv (nearestIndex uv (p / 32))) (sampleAt s.mem vv (nearestIndex vv (p / 32))))) ∧
      ∀ a, (rowSpan d dw).holds a = false → m.read a = s.mem.read a

/-- The frame of ROW.IDENT, ROW.GENERAL and ROW.HALF (R48, R87 to R89), in every state and on all operands: when one
answers a next state, every register, flag and other field is as before, and every byte of memory outside the row's
4·DW bytes from the destination address on reads as before. -/
def Obligations.RowOperationFrame : Prop :=
  ∀ (s t : State) (lv uv vv : RowView) (d dx : Int) (dw : Nat),
    (exec (.rowIdent lv uv vv d dw) s = .next t ∨ exec (.rowHalf lv uv vv d dw) s = .next t ∨
      exec (.rowGeneral lv uv vv d dw dx) s = .next t) →
    t = { s with mem := t.mem } ∧
      ∀ a, (∀ k : Nat, k < 4 * dw → a ≠ addrOf (d + (k : Int))) → t.mem.read a = s.mem.read a

/-- R64: a row operation faults, on an address where the platform completes no access, when it writes a byte at such an
address or reads a sample of some column there, and no address has side effects; so no value is guessed for the read and
no write is skipped. That it faults is the model's reading of stuck (log 3). -/
def Obligations.RowOperationStops : Prop :=
  ∀ (s : State) (i : Instr) (lv uv vv : RowView) (d dx : Int) (dw : Nat), i.wf = true →
    (i = .rowIdent lv uv vv d dw ∨ i = .rowHalf lv uv vv d dw ∨ i = .rowGeneral lv uv vv d dw dx) →
    (∀ a, kindAt s.regions a ≠ some .sideEffect) →
    (∃ b : Int, ((∃ k : Nat, k < 4 * dw ∧ b = d + (k : Int)) ∨ ∃ x : Nat, x < dw ∧ b ∈ sampleReads i x) ∧
      kindAt s.regions (addrOf b) = some .absent) →
    ∃ a, exec i s = .fault (.accessNotCompleted a) ∧ kindAt s.regions a = some .absent

/-- R87: a pixel of ROW.IDENT is the pixel that ROW.GENERAL computes at dx = 16, on ordinary memory and left-to-right
views. -/
def Obligations.IdentIsGeneralAtSixteen : Prop :=
  ∀ (rs : List Region) (lv uv vv : RowView) (m : Memory) (x : Nat), ViewOk lv → ViewOk uv → ViewOk vv →
    Ordinary rs (viewSpan lv) → Ordinary rs (viewSpan uv) → Ordinary rs (viewSpan vv) →
    identPixel rs lv uv vv m x = generalPixel rs lv uv vv 16 m x

/-- R90: ROW.HALF is the general path at dx = 32 started at position 8. On every state and all operands it is the row
operation whose column x is the general path's pixel at position 32x + 8, which has integer part 2x, phase 2 and chroma
index x, with the floored average as its blend; and at a column whose second sample equals the first or exceeds it by 1
its pixel is that of ROW.GENERAL at dx = 32 from position 0. -/
def Obligations.HalfIsGeneralFromEight : Prop :=
  (∀ (s : State) (lv uv vv : RowView) (d : Int) (dw : Nat),
    exec (.rowHalf lv uv vv d dw) s =
      runRow (fun m x => generalPixelAt s.regions lv uv vv m (32 * (x : Int) + 8)) d dw s) ∧
  (∀ (rs : List Region) (lv uv vv : RowView) (m : Memory) (x : Nat),
    halfPixel rs lv uv vv m x = generalPixelAt rs lv uv vv m (32 * (x : Int) + 8) ∧
      ∀ y0 y1, fetch rs m lv (2 * (x : Int)) = .ok y0 → fetch rs m lv (2 * (x : Int) + 1) = .ok y1 →
        (y1 = y0 ∨ y1.toNat = y0.toNat + 1) → halfPixel rs lv uv vv m x = generalPixel rs lv uv vv 32 m x) ∧
  ∀ (x : Nat) (y0 y1 : Byte),
    (lumaIndex (32 * (x : Int) + 8) = 2 * (x : Int) ∧ phaseOf (32 * (x : Int) + 8) = 2 ∧
      chromaIndex (32 * (x : Int) + 8) = (x : Int)) ∧
    (blend 2 y0 y1).toNat = (y0.toNat + y1.toNat) / 2

/-- R98, R99: every destination row takes a source row and a chroma row that exist; the source row is the floor of
y·H / DH. -/
def Obligations.SourceRowsExist : Prop :=
  ∀ (l : Layout) (h dh y : Nat), 1 ≤ h → y < dh →
    sourceRow h dh y < h ∧ chromaRow l (sourceRow h dh y) < chromaH l h ∧
      sourceRow h dh y * dh ≤ y * h ∧ y * h < (sourceRow h dh y + 1) * dh

/-- R103: the step has the same magnitude both ways, at most 1048560, it is 0 exactly when DW > 16·W, and every position
of a row is less than 16·W in magnitude. -/
def Obligations.StepAndPositionRange : Prop :=
  ∀ (w dw x : Nat), 1 ≤ w → w ≤ 65535 → 1 ≤ dw → x < dw →
    stepOf (-(w : Int)) dw = -stepOf w dw ∧ (stepOf w dw).natAbs ≤ 1048560 ∧ 0 ≤ stepOf w dw ∧
      (stepOf w dw = 0 ↔ 16 * w < dw) ∧ ((x : Int) * stepOf w dw).natAbs < 16 * w ∧
      ((x : Int) * stepOf (-(w : Int)) dw).natAbs < 16 * w

/-- R102: which row operation a command uses. Left to right: ROW.IDENT at DW = W, else ROW.HALF at 2·DW = W, else
ROW.GENERAL with step tdiv(16·W, DW). Right to left: always ROW.GENERAL, with step -tdiv(16·W, DW). -/
def Obligations.RowDispatch : Prop :=
  ∀ (sn : Snapshot) (y : Nat), 1 ≤ sn.args.dstW →
    let g := normalise sn
    let lv := lumaView sn g y
    let uv := uView sn g y
    let vv := vView sn g y
    let d := dstRow sn.args y
    let w := sn.args.srcW
    let dw := sn.args.dstW
    (rotRtl sn.rotation = false → dw = w → rowInstr sn g y = .rowIdent lv uv vv d dw) ∧
    (rotRtl sn.rotation = false → 2 * dw = w → rowInstr sn g y = .rowHalf lv uv vv d dw) ∧
    (rotRtl sn.rotation = false → dw ≠ w → 2 * dw ≠ w →
      rowInstr sn g y = .rowGeneral lv uv vv d dw (tdiv (16 * (w : Int)) dw)) ∧
    (rotRtl sn.rotation = true → rowInstr sn g y = .rowGeneral lv uv vv d dw (-tdiv (16 * (w : Int)) dw))

/-- R93, R102: the row operations of a command that passed its checks are well-formed instructions. -/
def Obligations.RowOperationsWellFormed : Prop :=
  ∀ (sn : Snapshot) (y : Nat), argError sn.args = none → y < sn.args.dstH → (rowInstr sn (normalise sn) y).wf = true

/-- R105: the sample that each of the three views of a destination row gives at index k is the plane's sample at row `absRow`
and column `absCol`, as one integer address; and a destination row's views lie in the sample sets, its pixels in the
destination set (R53). -/
def Obligations.ViewsInAbsoluteCoordinates : Prop :=
  ∀ (sn : Snapshot) (y : Nat) (k : Int), argError sn.args = none → y < sn.args.dstH →
    let a := sn.args
    let g := normalise sn
    let btt := rotBtt sn.rotation
    let rtl := rotRtl sn.rotation
    let row := sourceRow a.srcH a.dstH y
    ((lumaView sn g y).o + fetchIndex (lumaView sn g y) k =
        baseOf a.yBase + absRow btt a.srcH row * strideOf a.yStride + absCol rtl a.srcW k ∧
      (uView sn g y).o + fetchIndex (uView sn g y) k =
        baseOf a.uBase + absRow btt (chromaH sn.layout a.srcH) (chromaRow sn.layout row) * strideOf a.uStride +
          absCol rtl (chromaW a.srcW) k ∧
      (vView sn g y).o + fetchIndex (vView sn g y) k =
        baseOf a.vBase + absRow btt (chromaH sn.layout a.srcH) (chromaRow sn.layout row) * strideOf a.vStride +
          absCol rtl (chromaW a.srcW) k) ∧
    ∀ b, (((viewSpan (lumaView sn g y)).holds b || (viewSpan (uView sn g y)).holds b ||
        (viewSpan (vView sn g y)).holds b) = true → spansHold (sampleSpans sn.layout a) b = true) ∧
      ((rowSpan (dstRow a y) a.dstW).holds b = true → spansHold (dstSpans a) b = true)

/-- R53 (isolation): what a destination row of a command receives depends on the bytes of its three sample sets alone. -/
def Obligations.RowDependsOnSamplesOnly : Prop :=
  ∀ (s s' t t' : State) (sn : Snapshot) (y : Nat), argError sn.args = none → setsApart sn.layout sn.args →
    y < sn.args.dstH → s.regions = s'.regions →
    (∀ a, spansHold (sampleSpans sn.layout sn.args) a = true → s.mem.read a = s'.mem.read a) →
    exec (rowInstr sn (normalise sn) y) s = .next t → exec (rowInstr sn (normalise sn) y) s' = .next t' →
    ∀ a, a < 4294967296 → (rowSpan (dstRow sn.args y) sn.args.dstW).holds a = true → t.mem.read a = t'.mem.read a

/-- R53, R114, R126: a turn of the engine changes no register, no other flag than DONE at completion, and no byte of memory
outside the destination set of the command in progress; while IDLE it changes nothing. -/
def Obligations.EngineTurnFrame : Prop :=
  ∀ (s t : State) (pick : Nat), act (.engine pick) s = .next t → s.Inv →
    t = { s with phase := t.phase, done := t.done, mem := t.mem } ∧
      (s.phase = .idle → t = s) ∧
      ∀ e, s.phase = .busy e →
        (t.phase ≠ .idle → t.done = s.done) ∧
        ∀ a, spansHold (dstSpans e.snap.args) a = false → t.mem.read a = s.mem.read a

/-- R104: with every row produced, the engine's turn sets BUSY to 0 and DONE to 1 in one step and changes nothing else. That
completion is a turn of its own is the model's choice (log 4, DESIGN CHOICE). A stuck engine has a pending row (StepKeepsInvariant),
so the last hypothesis leaves out no state a command reaches. -/
def Obligations.CompletionStep : Prop :=
  ∀ (s : State) (e : Engine) (pick : Nat), s.phase = .busy e → e.pending = [] → e.stuck = false →
    act (.engine pick) s = .next { s with phase := .idle, done := true }

/-- R30, R54, R84, R105: when a step that is no reset ends a command, DONE is 1, ERR is 0, and every destination pixel holds
the reference pixel computed from memory as it was at acceptance. -/
def Obligations.DoneMeansEveryPixelWritten : Prop :=
  ∀ (s t : State) (e : Engine), s.Inv → s.phase = .busy e → step s = .next t → t.phase = .idle →
    (∀ rest, s.inputs ≠ .reset :: rest) →
    t.done = true ∧ t.err = .none ∧
      ∀ y x, y < e.snap.args.dstH → x < e.snap.args.dstW →
        t.mem.readWord (dstPixel e.snap.args y x) = refPixel e.snap e.before y x

/-- The invariant of the machine (R27, R30, R32, R34, R35, R53, R54, R59) is kept by every step. -/
def Obligations.StepKeepsInvariant : Prop :=
  ∀ s t : State, s.Inv → step s = .next t → t.Inv

/-- The invariant holds after reset (R128), and in every idle state that differs from it only in memory in canonical form,
argument registers, CMD and what the outside world is about to do. -/
def Obligations.ResetMeetsInvariant : Prop :=
  State.reset.Inv ∧ ∀ (m : Memory) (a : Args) (w : Word) (ins : List Input) (rs : List Region), m.wf = true →
    { State.reset with mem := m, args := a, cmd := w, inputs := ins, regions := rs }.Inv

/-- R93, R104, R56, R135: a supported command whose checks pass, whose duties are kept and whose sets are ordinary memory,
accepted and then given DH + 1 turns of the engine at whatever rows the picks choose, ends IDLE with DONE, with every
destination pixel the reference pixel and every other byte of memory, every argument register and CMD as they were. The
count DH + 1 is the model's choice: one row a turn, completion a turn of its own (log 4, DESIGN CHOICE). -/
def Obligations.CommandRunsToCompletion : Prop :=
  ∀ (s : State) (l : Layout) (r : Rotation) (picks : List Nat), s.phase = .idle → s.mem.wf = true →
    rotSupported r = true → ArgsPass s.args → DutiesKept l s →
    (∀ a, a < 4294967296 → (spansHold (dstSpans s.args) a || spansHold (sampleSpans l s.args) a) = true →
      kindAt s.regions a = none) →
    picks.length = s.args.dstH + 1 → s.inputs = engineTurns picks →
    ∃ t u, exec (commandOf l r) s = .next t ∧ core.run (s.args.dstH + 1) t = .next u ∧
      (u.phase = .idle ∧ u.done = true ∧ u.err = .none ∧ u.overrun = false ∧ u.args = s.args ∧
        u.cmd = commandWord l r) ∧
      (∀ y x, y < s.args.dstH → x < s.args.dstW →
        u.mem.readWord (dstPixel s.args y x) = refPixel ⟨l, r, s.args⟩ s.mem y x) ∧
      ∀ a, spansHold (dstSpans s.args) a = false → u.mem.read a = s.mem.read a

/-- R51, R59, R132: a host read of the four bytes of a destination pixel while BUSY returns its four bytes from before the
command or the four bytes the command writes, never a mixture; nothing but the answer and the model's own counter
changes. Which of the two is a free value (log 5). -/
def Obligations.BusyReadIsOldOrNew : Prop :=
  ∀ (s : State) (e : Engine) (y x : Nat) (a : BitVec 32), s.Inv → s.phase = .busy e →
    y < e.snap.args.dstH → x < e.snap.args.dstW → a.toNat = addrOf (dstPixel e.snap.args y x) →
    (∀ b, b < 4294967296 → spansHold (dstSpans e.snap.args) b = true → kindAt s.regions b = none) →
    ∃ v, act (.memRead a 4) s = .next { s with busData := wordBytes v, nonce := s.nonce + 1 } ∧
      (v = e.before.readWord (dstPixel e.snap.args y x) ∨ newPixel s.regions e y x = some v)

/-- R52: while IDLE a host read of ordinary memory returns what memory holds; nothing but the answer and the model's own
counter changes. That it is memory that answers, and not a write the host has posted to the address and the platform has
not yet performed, is the model's choice (log 10, DESIGN CHOICE, unsafe). -/
def Obligations.IdleReadReturnsMemory : Prop :=
  ∀ (s : State) (a : BitVec 32), s.phase = .idle → kindAt s.regions a.toNat = none →
    act (.memRead a 1) s = .next { s with busData := [s.mem.read a.toNat], nonce := s.nonce + 1 }

/-- R57, R130 (2): performing the oldest posted write changes that byte of ordinary memory and nothing else; while BUSY a
write to a byte of the command's sample or destination sets is refused. -/
def Obligations.PostedWritePerformed : Prop :=
  ∀ (s : State) (a : BitVec 32) (v : Byte) (rest : List (BitVec 32 × Byte)), s.posted = (a, v) :: rest →
    kindAt s.regions a.toNat = none →
    ((s.phase = .idle ∨ ∃ e, s.phase = .busy e ∧ spansHold (dstSpans e.snap.args) a.toNat = false ∧
        spansHold (sampleSpans e.snap.layout e.snap.args) a.toNat = false) →
      ∃ m, act .memDrain s = .next { s with mem := m, posted := rest } ∧ m.read a.toNat = v ∧
        ∀ b, b ≠ a.toNat → m.read b = s.mem.read b) ∧
    (∀ e, s.phase = .busy e → (spansHold (dstSpans e.snap.args) a.toNat = true ∨
        spansHold (sampleSpans e.snap.layout e.snap.args) a.toNat = true) →
      act .memDrain s = .refused .hostWriteDuringCommand)

/-- R14, R39, R62: the argument registers and CMD change only while IDLE, by an aligned 32-bit host write to the register
(CMD then holds the word written), or by the reset input; and the command in progress keeps its snapshot until it ends,
and a stuck engine all it holds (R64). -/
def Obligations.RegistersChangeOnlyByTheHost : Prop :=
  ∀ s t : State, step s = .next t →
    (t.args ≠ s.args → (∃ rest, s.inputs = .reset :: rest) ∨
      (s.phase = .idle ∧ ∃ off v rest, TakesWrite off ∧ regAt off ≠ .cmd ∧ WritesRegister s off v rest ∧
        t.args = s.args.set (regAt off) v ∧ t.cmd = s.cmd)) ∧
    (t.cmd ≠ s.cmd → (∃ rest, s.inputs = .reset :: rest) ∨
      (s.phase = .idle ∧ t.args = s.args ∧ ∃ rest, WritesRegister s 0x00#6 t.cmd rest)) ∧
    ∀ e e', s.phase = .busy e → t.phase = .busy e' →
      (e'.snap = e.snap ∧ e'.norm = e.norm ∧ e'.before = e.before ∧ e'.pending.Sublist e.pending) ∧
        (e.stuck = true → e' = e)

/-- R34: the phase moves from IDLE to BUSY only by accepting a command written to CMD, and from BUSY to IDLE only by its
completion (every row produced, DONE set) or by the reset input, which always leaves it IDLE. -/
def Obligations.PhaseMoves : Prop :=
  ∀ s t : State, step s = .next t →
    ((∃ rest, s.inputs = .reset :: rest) → t.phase = .idle) ∧
    (∀ e, s.phase = .idle → t.phase = .busy e →
      ∃ l r, rotSupported r = true ∧ argError s.args = none ∧ t.cmd = commandWord l r ∧
        e = startEngine ⟨l, r, s.args⟩ s.mem ∧
        ∃ rest, s.inputs = .regWrite 0x00#6 4 (commandWord l r) :: rest ∨
          ∃ addr, s.inputs = .busWrite addr 4 (commandWord l r) :: rest ∧ addr = Config.regBase) ∧
    ∀ e, s.phase = .busy e → t.phase = .idle →
      (∃ rest, s.inputs = .reset :: rest) ∨ (e.pending = [] ∧ e.stuck = false ∧ t.done = true)

/-- R31: OVERRUN is set only when an aligned 32-bit host write to CMD or an argument register is dropped while BUSY, so that
nothing else changes, and it is cleared only when a command is issued while IDLE, by such a write to CMD (its word is
then in CMD), or by the reset input. -/
def Obligations.OverrunSetAndCleared : Prop :=
  ∀ s t : State, step s = .next t →
    (s.overrun = false → t.overrun = true → s.phase ≠ .idle ∧
      ∃ off v rest, TakesWrite off ∧ WritesRegister s off v rest ∧ t = { s with overrun := true, inputs := rest }) ∧
    (s.overrun = true → t.overrun = false →
      (∃ rest, s.inputs = .reset :: rest) ∨ (s.phase = .idle ∧ ∃ rest, WritesRegister s 0x00#6 t.cmd rest))

/-- R57, R126: while IDLE the block makes no memory access: memory changes only when the platform performs a host
write. -/
def Obligations.IdleMemoryChangesOnlyByTheHost : Prop :=
  ∀ s t : State, step s = .next t → s.phase = .idle → t.mem ≠ s.mem → ∃ rest, s.inputs = .memDrain :: rest

/-- R106, the direction that holds of every plane content: at identity scale on ordinary memory, MIR0 is ROT0 with each row
reversed when W is odd or at most 2; MIR180 is ROT0 with the rows in reverse order in 4:2:2, or when H is even or 1; and
ROT180 is ROT0 with both reversed when both conditions hold. -/
def Obligations.RotationsAtIdentityScale : Prop :=
  ∀ (rs : List Region) (l : Layout) (a : Args) (m : Memory) (y x : Nat), argError a = none → a.dstW = a.srcW →
    a.dstH = a.srcH →
    (∀ b, b < 4294967296 → (spansHold (dstSpans a) b || spansHold (sampleSpans l a) b) = true → kindAt rs b = none) →
    y < a.dstH → x < a.dstW →
    let pixel := fun r y x => newPixel rs (startEngine ⟨l, r, a⟩ m) y x
    let columns := a.srcW % 2 = 1 ∨ a.srcW ≤ 2
    let rows := l = .l422 ∨ a.srcH % 2 = 0 ∨ a.srcH = 1
    (columns → pixel .mir0 y x = pixel .rot0 y (a.dstW - 1 - x)) ∧
      (rows → pixel .mir180 y x = pixel .rot0 (a.dstH - 1 - y) x) ∧
      (columns → rows → pixel .rot180 y x = pixel .rot0 (a.dstH - 1 - y) (a.dstW - 1 - x))

/-- R64, R116: a stuck engine makes no further progress. A turn of the engine, at whatever row, changes nothing; and every step
but the reset input leaves the engine as it is, BUSY 1 and DONE and ERR as they were, with memory changed at most by the
performing of a host write. That one mark stops the rows not yet produced as well is read from R64 and 93 S8 (log 3,
DEDUCED). -/
def Obligations.StuckEngineMakesNoProgress : Prop :=
  ∀ (s : State) (e : Engine), s.phase = .busy e → e.stuck = true →
    (∀ pick, act (.engine pick) s = .next s) ∧
    ∀ t, step s = .next t → (∃ rest, s.inputs = .reset :: rest) ∨
      ((t.phase = .busy e ∧ (statusWord t).getLsbD 0 = true ∧ t.done = s.done ∧ t.err = s.err) ∧
        (t.mem = s.mem ∨ ∃ rest, s.inputs = .memDrain :: rest))
end

