-- ==== Sys2Proof/Laws/Colour.lean ====
section
/-! SUPPORT. The saturation table and the luma blend as numbers (R77, R78, R86). -/

namespace Sys2Proof.Machine

/-- SAT clamps its index to a byte. -/
theorem sat_toNat (i : Int) : (sat i).toNat = (max 0 (min i 255)).toNat := by
  have : sat i = BitVec.ofInt 8 (max 0 (min i 255)) := by
    unfold sat rom clamp
    congr 1
    split_ifs <;> omega
  rw [this, BitVec.toNat_ofInt]; omega

/-- The bytes of a packed pixel, in their order in memory (R49, R85). -/
theorem pack_eq_wordOf (p : Pixel) : pack p = wordOf p.b p.g p.r p.a := rfl

end Sys2Proof.Machine
end

