-- ==== Sys2Proof/Laws/Memory.lean ====
section
/-! SUPPORT. The laws of memory: a read after a write, and that every memory operation keeps the canonical form. -/

namespace Sys2Proof.Machine

@[simp] theorem read_nil (a : Nat) : Memory.read [] a = unlistedByte := rfl

theorem read_erase (m : Memory) (a b : Nat) :
    (m.erase a).read b = if b = a then unlistedByte else m.read b := by
  induction m with
  | nil => simp [Memory.erase]
  | cons c m ih =>
    obtain ⟨k, v⟩ := c
    by_cases hk : k = a
    · subst hk
      by_cases hb : b = k <;> simp_all [Memory.erase, Memory.read, eq_comm]
    · by_cases hb : k = b
      · subst hb; simp [Memory.erase, Memory.read, hk]
      · simp [Memory.erase, Memory.read, hk, hb, ih]

theorem read_insert (m : Memory) (a b : Nat) (v : Byte) (hm : ∀ c ∈ m, c.1 ≠ a) :
    (m.insert a v).read b = if b = a then v else m.read b := by
  induction m with
  | nil => by_cases hb : b = a <;> simp [Memory.insert, Memory.read, hb, @eq_comm _ a b]
  | cons c m ih =>
    obtain ⟨k, w⟩ := c
    have hk : k ≠ a := hm (k, w) (by simp)
    have ih' := ih (fun c hc => hm c (by simp [hc]))
    by_cases hlt : a < k
    · by_cases hb : b = a <;> simp [Memory.insert, hlt, Memory.read, hb, @eq_comm _ a b]
    · by_cases hb : k = b
      · subst hb; simp [Memory.insert, hlt, Memory.read, hk]
      · simp [Memory.insert, hlt, Memory.read, hb, ih']

theorem erase_no_key (m : Memory) (a : Nat) : ∀ c ∈ m.erase a, c.1 ≠ a := by
  induction m with
  | nil => simp [Memory.erase]
  | cons c m ih =>
    obtain ⟨k, v⟩ := c
    by_cases hk : k = a <;> simp only [Memory.erase, hk, if_true, if_false]
    · exact ih
    · intro c hc
      rcases List.mem_cons.1 hc with rfl | hc
      · exact hk
      · exact ih c hc

/-- A read after a write: the byte written at its address, every other address as before. -/
theorem read_write (m : Memory) (a b : Nat) (v : Byte) :
    (m.write a v).read b = if b = a then v else m.read b := by
  unfold Memory.write
  split
  · rename_i hv; simp [read_erase, hv]
  · rw [read_insert _ _ _ _ (erase_no_key m a), read_erase]
    by_cases hb : b = a <;> simp [hb]

theorem wfFrom_mono {lo lo' : Nat} (h : lo' ≤ lo) {m : Memory} (hm : Memory.wfFrom lo m = true) :
    Memory.wfFrom lo' m = true := by
  cases m with
  | nil => rfl
  | cons c m =>
    simp only [Memory.wfFrom, Bool.and_eq_true, decide_eq_true_eq] at hm ⊢
    exact ⟨⟨⟨by omega, hm.1.1.2⟩, hm.1.2⟩, hm.2⟩

theorem wfFrom_erase {lo : Nat} {m : Memory} (a : Nat) (hm : Memory.wfFrom lo m = true) :
    Memory.wfFrom lo (m.erase a) = true := by
  induction m generalizing lo with
  | nil => rfl
  | cons c m ih =>
    obtain ⟨k, v⟩ := c
    simp only [Memory.wfFrom, Bool.and_eq_true, decide_eq_true_eq] at hm
    by_cases hk : k = a
    · simp only [Memory.erase, hk, if_true]
      exact wfFrom_mono (by omega) (ih hm.2)
    · simp only [Memory.erase, hk, if_false, Memory.wfFrom, Bool.and_eq_true, decide_eq_true_eq]
      exact ⟨hm.1, ih hm.2⟩

theorem wfFrom_insert {lo : Nat} {m : Memory} {a : Nat} {v : Byte} (hlo : lo ≤ a) (ha : a < 4294967296)
    (hv : v ≠ unlistedByte) (hk : ∀ c ∈ m, c.1 ≠ a) (hm : Memory.wfFrom lo m = true) :
    Memory.wfFrom lo (m.insert a v) = true := by
  induction m generalizing lo with
  | nil => simp [Memory.insert, Memory.wfFrom, hlo, ha, hv]
  | cons c m ih =>
    obtain ⟨k, w⟩ := c
    have hka : k ≠ a := hk (k, w) (by simp)
    simp only [Memory.wfFrom, Bool.and_eq_true, decide_eq_true_eq] at hm
    by_cases hlt : a < k
    · simp only [Memory.insert, hlt, if_true, Memory.wfFrom, Bool.and_eq_true, decide_eq_true_eq]
      exact ⟨⟨⟨hlo, ha⟩, by simpa using hv⟩, ⟨⟨by omega, hm.1.1.2⟩, hm.1.2⟩, hm.2⟩
    · simp only [Memory.insert, hlt, if_false, Memory.wfFrom, Bool.and_eq_true, decide_eq_true_eq]
      exact ⟨hm.1, ih (by omega) (fun c hc => hk c (by simp [hc])) hm.2⟩

/-- A write of a byte below 2^32 keeps the canonical form. -/
theorem wf_write {m : Memory} {a : Nat} (v : Byte) (ha : a < 4294967296) (hm : m.wf = true) :
    (m.write a v).wf = true := by
  unfold Memory.write Memory.wf at *
  split
  · exact wfFrom_erase a hm
  · rename_i hv
    exact wfFrom_insert (Nat.zero_le _) ha hv (erase_no_key m a) (wfFrom_erase a hm)

theorem addrOf_lt (v : Int) : addrOf v < 4294967296 := by unfold addrOf; omega

/-- A pixel write keeps the canonical form. -/
theorem wf_writeWord {m : Memory} (d : Int) (v : Word) (hm : m.wf = true) : (m.writeWord d v).wf = true :=
  wf_write _ (addrOf_lt _) (wf_write _ (addrOf_lt _) (wf_write _ (addrOf_lt _) (wf_write _ (addrOf_lt _) hm)))

/-- What a byte reads as after a pixel write (R49): the byte of the word at its offset, else as before. -/
theorem read_writeWord (m : Memory) (d : Int) (v : Word) (b : Nat) :
    (m.writeWord d v).read b =
      if b = addrOf (d + 3) then byteAt v 3 else if b = addrOf (d + 2) then byteAt v 2
      else if b = addrOf (d + 1) then byteAt v 1 else if b = addrOf d then byteAt v 0 else m.read b := by
  simp only [Memory.writeWord, read_write]

/-- A byte outside the four bytes of a pixel write reads as before. -/
theorem read_writeWord_off (m : Memory) (d : Int) (v : Word) (b : Nat)
    (h : ∀ k : Nat, k < 4 → b ≠ addrOf (d + k)) : (m.writeWord d v).read b = m.read b := by
  have h0 := h 0 (by omega); have h1 := h 1 (by omega); have h2 := h 2 (by omega); have h3 := h 3 (by omega)
  simp only [Int.add_zero, Nat.cast_ofNat, Nat.cast_one, Nat.cast_zero] at h0 h1 h2 h3
  simp [read_writeWord, h0, h1, h2, h3]

/-- A word is made of its four bytes (R49). -/
theorem wordOf_bytes (v : Word) : wordOf (byteAt v 0) (byteAt v 1) (byteAt v 2) (byteAt v 3) = v := by
  refine BitVec.eq_of_getLsbD_eq fun i hi => ?_
  simp only [wordOf, byteAt, BitVec.getLsbD_append, BitVec.getLsbD_extractLsb']
  by_cases h1 : i < 8
  · simp [h1]
  by_cases h2 : i < 16
  · simp [h1, show i - 8 < 8 by omega, show 8 + (i - 8) = i by omega]
  by_cases h3 : i < 24
  · simp [h1, show ¬ i - 8 < 8 by omega, show i - 8 - 8 < 8 by omega, show 16 + (i - 8 - 8) = i by omega]
  · simp [h1, show ¬ i - 8 < 8 by omega, show ¬ i - 8 - 8 < 8 by omega, show i - 8 - 8 - 8 < 8 by omega,
      show 24 + (i - 8 - 8 - 8) = i by omega]

/-- The bytes of a word built from four bytes are those bytes (R49). -/
theorem byteAt_wordOf (b0 b1 b2 b3 : Byte) :
    byteAt (wordOf b0 b1 b2 b3) 0 = b0 ∧ byteAt (wordOf b0 b1 b2 b3) 1 = b1 ∧ byteAt (wordOf b0 b1 b2 b3) 2 = b2 ∧
      byteAt (wordOf b0 b1 b2 b3) 3 = b3 := by
  refine ⟨?_, ?_, ?_, ?_⟩ <;> refine BitVec.eq_of_getLsbD_eq fun i hi => ?_ <;>
    simp only [wordOf, byteAt, BitVec.getLsbD_append, BitVec.getLsbD_extractLsb']
  · simp [hi]
  · simp [hi]
  · simp [hi, show ¬ 16 + i < 8 by omega, show ¬ 16 + i - 8 < 8 by omega, show 16 + i - 8 - 8 = i by omega]
  · simp [hi, show ¬ 24 + i < 8 by omega, show ¬ 24 + i - 8 < 8 by omega, show ¬ 24 + i - 8 - 8 < 8 by omega,
      show 24 + i - 8 - 8 - 8 = i by omega]

/-- The four addresses of a pixel are distinct (R43: 2^32 is larger than 4). -/
theorem addrOf_add_ne (d : Int) {j k : Int} (hne : j ≠ k) (hj : 0 ≤ j) (hk : 0 ≤ k) (hj' : j < 4294967296)
    (hk' : k < 4294967296) : addrOf (d + j) ≠ addrOf (d + k) := by
  unfold addrOf; omega

/-- A pixel read back after it was written (R49, R52). -/
theorem readWord_writeWord (m : Memory) (d : Int) (v : Word) : (m.writeWord d v).readWord d = v := by
  have h01 : addrOf d ≠ addrOf (d + 1) := by unfold addrOf; omega
  have h02 : addrOf d ≠ addrOf (d + 2) := by unfold addrOf; omega
  have h03 : addrOf d ≠ addrOf (d + 3) := by unfold addrOf; omega
  have h12 : addrOf (d + 1) ≠ addrOf (d + 2) := by unfold addrOf; omega
  have h13 : addrOf (d + 1) ≠ addrOf (d + 3) := by unfold addrOf; omega
  have h23 : addrOf (d + 2) ≠ addrOf (d + 3) := by unfold addrOf; omega
  simp [Memory.readWord, read_writeWord, h01, h02, h03, h12, h13, h23, wordOf_bytes]

/-- A word depends on the bytes it is read from. -/
theorem readWord_congr {m m' : Memory} {d : Int} (h : ∀ k : Nat, k < 4 → m.read (addrOf (d + k)) = m'.read (addrOf (d + k))) :
    m.readWord d = m'.readWord d := by
  have h0 := h 0 (by omega); have h1 := h 1 (by omega); have h2 := h 2 (by omega); have h3 := h 3 (by omega)
  simp only [Int.add_zero, Nat.cast_ofNat, Nat.cast_one, Nat.cast_zero] at h0 h1 h2 h3
  simp [Memory.readWord, h0, h1, h2, h3]

end Sys2Proof.Machine
end

