-- ==== Sys2Proof/Laws/PerInstr.lean ====
section
/-! SUPPORT. The per-instruction family Encoding: a command has one word, which decodes to it; an internal operation has none (R71, R73). -/

namespace Sys2Proof.Laws.Encoding

/-- The instruction has a word exactly when it is no internal operation, and its word decodes to it. -/
def Statement (i : Instr) : Prop :=
  match encode i with
  | some w => decode w = .ok i ∧ i.wf = true
  | none => ∀ w, decode w ≠ .ok i

/-- The decoder answers commands only (R70). -/
theorem decode_ok_command {w : Word} {i : Instr} (h : decode w = .ok i) : ∃ l r, i = commandOf l r := by
  unfold decode at h
  split at h
  · cases h
  · split at h
    · cases h
    · cases h; exact ⟨_, _, rfl⟩

theorem scale420Rot0 : Statement .scale420Rot0 := ⟨rfl, rfl⟩
theorem scale420Rot90 : Statement .scale420Rot90 := ⟨rfl, rfl⟩
theorem scale420Rot180 : Statement .scale420Rot180 := ⟨rfl, rfl⟩
theorem scale420Rot270 : Statement .scale420Rot270 := ⟨rfl, rfl⟩
theorem scale420Mir0 : Statement .scale420Mir0 := ⟨rfl, rfl⟩
theorem scale420Mir90 : Statement .scale420Mir90 := ⟨rfl, rfl⟩
theorem scale420Mir180 : Statement .scale420Mir180 := ⟨rfl, rfl⟩
theorem scale420Mir270 : Statement .scale420Mir270 := ⟨rfl, rfl⟩
theorem scale422Rot0 : Statement .scale422Rot0 := ⟨rfl, rfl⟩
theorem scale422Rot90 : Statement .scale422Rot90 := ⟨rfl, rfl⟩
theorem scale422Rot180 : Statement .scale422Rot180 := ⟨rfl, rfl⟩
theorem scale422Rot270 : Statement .scale422Rot270 := ⟨rfl, rfl⟩
theorem scale422Mir0 : Statement .scale422Mir0 := ⟨rfl, rfl⟩
theorem scale422Mir90 : Statement .scale422Mir90 := ⟨rfl, rfl⟩
theorem scale422Mir180 : Statement .scale422Mir180 := ⟨rfl, rfl⟩
theorem scale422Mir270 : Statement .scale422Mir270 := ⟨rfl, rfl⟩

theorem sat (i : Int) : Statement (.sat i) := by
  intro w h
  obtain ⟨l, r, h⟩ := decode_ok_command h
  cases l <;> cases r <;> cases h

theorem yuvpixel (y u v : Byte) : Statement (.yuvpixel y u v) := by
  intro w h
  obtain ⟨l, r, h⟩ := decode_ok_command h
  cases l <;> cases r <;> cases h

theorem rowIdent (lv uv vv : RowView) (d : Int) (dw : Nat) : Statement (.rowIdent lv uv vv d dw) := by
  intro w h
  obtain ⟨l, r, h⟩ := decode_ok_command h
  cases l <;> cases r <;> cases h

theorem rowGeneral (lv uv vv : RowView) (d : Int) (dw : Nat) (dx : Int) : Statement (.rowGeneral lv uv vv d dw dx) := by
  intro w h
  obtain ⟨l, r, h⟩ := decode_ok_command h
  cases l <;> cases r <;> cases h

theorem rowHalf (lv uv vv : RowView) (d : Int) (dw : Nat) : Statement (.rowHalf lv uv vv d dw) := by
  intro w h
  obtain ⟨l, r, h⟩ := decode_ok_command h
  cases l <;> cases r <;> cases h

end Sys2Proof.Laws.Encoding
end

