-- ==== Sys2Proof/Laws/Decode.lean ====
section
/-! SUPPORT. What the decoder answers: the fields as numbers, and that a word that decodes is its command's own word (R66 to R71). -/

namespace Sys2Proof.Machine

theorem rsvdField_toNat (w : Word) : (rsvdField w).toNat = w.toNat / 128 := by
  simp only [rsvdField, BitVec.extractLsb'_toNat, Nat.shiftRight_eq_div_pow]
  have := w.isLt; omega

theorem opcField_toNat (w : Word) : (opcField w).toNat = w.toNat % 16 := by
  simp [opcField, BitVec.extractLsb'_toNat]

theorem rotField_toNat (w : Word) : (rotField w).toNat = w.toNat / 16 % 8 := by
  simp only [rotField, BitVec.extractLsb'_toNat, Nat.shiftRight_eq_div_pow]

/-- A word that decodes is the word of the command it decodes to. -/
theorem decode_command {w : Word} {i : Instr} (h : decode w = .ok i) :
    ∃ l r, i = commandOf l r ∧ w = commandWord l r := by
  unfold decode at h
  split at h
  · cases h
  · rename_i h0
    split at h
    · cases h
    · rename_i l hl
      cases h
      refine ⟨l, _, rfl, ?_⟩
      have h0' : w.toNat / 128 = 0 := by
        rw [← rsvdField_toNat]; simpa using congrArg BitVec.toNat (not_not.1 h0)
      have hlt : w.toNat < 128 := by omega
      have h1 : w = BitVec.ofNat 32 (w.toNat) := by simp
      generalize w.toNat = n at *
      subst h1
      clear h0 h0'
      revert l
      revert n
      decide

/-- A command's word decodes to the command. -/
theorem decode_commandWord (l : Layout) (r : Rotation) : decode (commandWord l r) = .ok (commandOf l r) := by
  cases l <;> cases r <;> rfl

theorem encode_commandOf (l : Layout) (r : Rotation) : encode (commandOf l r) = some (commandWord l r) := by
  cases l <;> cases r <;> rfl

/-- Which layout and rotation a command has is not lost in its word. -/
theorem commandOf_inj {l l' : Layout} {r r' : Rotation} (h : commandOf l r = commandOf l' r') : l = l' ∧ r = r' := by
  cases l <;> cases r <;> cases l' <;> cases r' <;> first | exact ⟨rfl, rfl⟩ | cases h

/-- A word is Illegal exactly when its reserved bits are set or its OPC is not a frame scaler's (R67, R69). -/
theorem decode_error_iff (w : Word) :
    (∃ err, decode w = .error err) ↔ (w.toNat / 128 ≠ 0 ∨ (w.toNat % 16 ≠ 1 ∧ w.toNat % 16 ≠ 2)) := by
  have e1 : rsvdField w = 0 ↔ w.toNat / 128 = 0 := by
    rw [← rsvdField_toNat, ← BitVec.toNat_inj]; rfl
  have e2 : opcField w = 0x1#4 ↔ w.toNat % 16 = 1 := by
    rw [← opcField_toNat, ← BitVec.toNat_inj]; rfl
  have e3 : opcField w = 0x2#4 ↔ w.toNat % 16 = 2 := by
    rw [← opcField_toNat, ← BitVec.toNat_inj]; rfl
  unfold decode layoutOfOpc
  by_cases h1 : w.toNat / 128 = 0
  · rw [if_neg (not_not.2 (e1.2 h1))]
    by_cases h2 : w.toNat % 16 = 1
    · simp [e2.2 h2, h1, h2]
    · by_cases h3 : w.toNat % 16 = 2
      · simp [e3.2 h3, h1, h3]
      · simp [mt e2.1 h2, mt e3.1 h3, h1, h2, h3]
  · rw [if_pos (mt e1.1 h1)]; simp [h1]

end Sys2Proof.Machine
end

