-- ==== Sys2Proof/Laws/Spans.lean ====
section
/-! SUPPORT. What spans hold, when they share a byte, and that the overlap checks decide it. -/

namespace Sys2Proof.Machine

theorem holds_iff {i : Span} {a : Nat} :
    i.holds a = true ↔ (a + 4294967296 - i.start) % 4294967296 < i.len := by
  unfold Span.holds distUp; exact decide_eq_true_iff

/-- A span that begins at an integer address holds exactly its `len` addresses modulo 2^32 (R43). -/
theorem spanAt_holds {d : Int} {len a : Nat} (ha : a < 4294967296) (hl : len ≤ 4294967296) :
    (spanAt d len).holds a = true ↔ ∃ k : Nat, k < len ∧ a = addrOf (d + k) := by
  rw [holds_iff]; simp only [spanAt]
  have hd := addrOf_lt d
  constructor
  · intro h
    refine ⟨_, h, ?_⟩
    unfold addrOf at *
    omega
  · rintro ⟨k, hk, rfl⟩
    unfold addrOf at *
    omega

theorem spanAt_holds_mem {d : Int} {len k : Nat} (hk : k < len) (hl : len ≤ 4294967296) :
    (spanAt d len).holds (addrOf (d + k)) = true :=
  (spanAt_holds (addrOf_lt _) hl).2 ⟨k, hk, rfl⟩

/-- A span's first byte, when it has one. -/
theorem holds_start {i : Span} (h : 0 < i.len) : i.holds i.start = true := by
  rw [holds_iff]; omega

/-- Two spans meet exactly when they share an address (R55). -/
theorem meets_iff {i j : Span} (hi : i.start < 4294967296) (hj : j.start < 4294967296) (hi0 : 0 < i.len)
    (hj0 : 0 < j.len) :
    i.meets j = true ↔ ∃ a, a < 4294967296 ∧ i.holds a = true ∧ j.holds a = true := by
  constructor
  · intro h
    simp only [Span.meets, Bool.or_eq_true] at h
    rcases h with h | h
    · exact ⟨_, hj, h, holds_start hj0⟩
    · exact ⟨_, hi, holds_start hi0, h⟩
  · rintro ⟨a, ha, h1, h2⟩
    simp only [Span.meets, Bool.or_eq_true, holds_iff] at *
    omega

theorem apart_of_not_meets {i j : Span} (hi : i.start < 4294967296) (hj : j.start < 4294967296) (hi0 : 0 < i.len)
    (hj0 : 0 < j.len) (h : i.meets j = false) : Apart i j := by
  intro a ha h1
  cases h2 : j.holds a with
  | false => rfl
  | true => rw [(meets_iff hi hj hi0 hj0).2 ⟨a, ha, h1, h2⟩] at h; cases h

theorem spansHold_iff {is : List Span} {a : Nat} : spansHold is a = true ↔ ∃ i ∈ is, i.holds a = true := by
  simp [spansHold, List.any_eq_true]

theorem spansHold_append {is js : List Span} {a : Nat} :
    spansHold (is ++ js) a = (spansHold is a || spansHold js a) := by
  simp [spansHold, List.any_append]

theorem spansMeet_iff {is js : List Span} : spansMeet is js = true ↔ ∃ i ∈ is, ∃ j ∈ js, i.meets j = true := by
  simp [spansMeet, List.any_eq_true]

theorem spansSelfMeet_iff {is : List Span} :
    spansSelfMeet is = false ↔ is.Pairwise fun i j => i.meets j = false := by
  induction is with
  | nil => simp [spansSelfMeet]
  | cons i is ih => simp [spansSelfMeet, List.pairwise_cons, ih]

/-- A plane's rows, as spans (R45). -/
theorem mem_planeSpans {base stride : Int} {cols rows : Nat} {i : Span} :
    i ∈ planeSpans base stride cols rows ↔ ∃ r : Nat, r < rows ∧ i = spanAt (base + (r : Int) * stride) cols := by
  simp [planeSpans, eq_comm]

/-- Two different rows of a plane that does not meet itself lie apart (R54). -/
theorem planeSpans_rows_apart {base stride : Int} {cols rows r r' : Nat} (h0 : 0 < cols)
    (h : spansSelfMeet (planeSpans base stride cols rows) = false) (hr : r < rows) (hr' : r' < rows) (hne : r ≠ r') :
    Apart (spanAt (base + (r : Int) * stride) cols) (spanAt (base + (r' : Int) * stride) cols) := by
  rw [spansSelfMeet_iff, planeSpans, List.pairwise_map, List.pairwise_iff_getElem] at h
  have key : ∀ p q : Nat, p < q → q < rows →
      (spanAt (base + (p : Int) * stride) cols).meets (spanAt (base + (q : Int) * stride) cols) = false := by
    intro p q hpq hq
    have := h p q (by rw [List.length_range]; omega) (by rw [List.length_range]; omega) hpq
    rwa [List.getElem_range, List.getElem_range] at this
  rcases Nat.lt_or_gt_of_ne hne with hlt | hlt
  · exact apart_of_not_meets (addrOf_lt _) (addrOf_lt _) h0 h0 (key r r' hlt hr')
  · intro a ha h1
    cases h2 : (spanAt (base + (r' : Int) * stride) cols).holds a with
    | false => rfl
    | true =>
      have := apart_of_not_meets (addrOf_lt _) (addrOf_lt _) h0 h0 (key r' r hlt hr) a ha h2
      rw [this] at h1; cases h1

end Sys2Proof.Machine
end

