-- ==== Sys2Proof/Laws/Rows.lean ====
section
/-! SUPPORT. What a fetch reads, what a pixel depends on, and everything the row loop can do. -/

namespace Sys2Proof.Machine

/-- A fetch reads one of the row's own samples (R82): the clamp keeps every index inside the view. -/
theorem fetch_in_view (vw : RowView) (k : Int) (hn : 1 ≤ vw.n) :
    ∃ j : Nat, j < vw.n ∧ vw.o + fetchIndex vw k = viewStart vw + (j : Int) := by
  unfold fetchIndex viewStart clamp
  cases vw.rtl with
  | true =>
    simp only [if_true]
    split_ifs
    · exact ⟨0, by omega, by omega⟩
    · exact ⟨vw.n - 1, by omega, by omega⟩
    · exact ⟨(k + ((vw.n : Int) - 1)).toNat, by omega, by omega⟩
  | false =>
    simp only [Bool.false_eq_true, if_false]
    split_ifs
    · exact ⟨0, by omega, by omega⟩
    · exact ⟨vw.n - 1, by omega, by omega⟩
    · exact ⟨k.toNat, by omega, by omega⟩

/-- The address of a fetch lies in the view's span. -/
theorem fetch_holds (vw : RowView) (k : Int) (hn : 1 ≤ vw.n) (hn' : vw.n ≤ 4294967296) :
    (viewSpan vw).holds (addrOf (vw.o + fetchIndex vw k)) = true := by
  obtain ⟨j, hj, h⟩ := fetch_in_view vw k hn
  rw [h]; exact spanAt_holds_mem hj hn'

theorem fetch_congr {rs : List Region} {m m' : Memory} {vw : RowView} (hv : ViewOk vw) (h : AgreeOn m m' vw)
    (k : Int) : fetch rs m vw k = fetch rs m' vw k := by
  unfold fetch memRead
  rw [h _ (fetch_holds vw k hv.1 hv.2)]

/-- A fetch from ordinary memory answers the byte it addresses (R47). -/
theorem fetch_ok {rs : List Region} {m : Memory} {vw : RowView} (hv : ViewOk vw) (h : Ordinary rs (viewSpan vw))
    (k : Int) : fetch rs m vw k = .ok (sampleAt m vw (fetchIndex vw k)) := by
  unfold fetch memRead access sampleAt
  rw [h _ (addrOf_lt _) (fetch_holds vw k hv.1 hv.2)]

/-- An index inside the row is fetched as it stands (R81, R82). -/
theorem fetchIndex_inside_ltr {vw : RowView} {k : Int} (hr : vw.rtl = false) (h0 : 0 ≤ k) (hk : k < vw.n) :
    fetchIndex vw k = k := by
  unfold fetchIndex clamp
  rw [hr]; simp only [Bool.false_eq_true, if_false]; split_ifs <;> omega

/-- One pixel of a row operation depends on the samples of its views only (R53). -/
def ReadsViews (pix : Memory → Nat → Except Stop Word) (lv uv vv : RowView) : Prop :=
  ∀ m m', AgreeOn m m' lv → AgreeOn m m' uv → AgreeOn m m' vv → ∀ x, pix m x = pix m' x

theorem identPixel_readsViews {rs : List Region} {lv uv vv : RowView} (hl : ViewOk lv) (hu : ViewOk uv)
    (hv : ViewOk vv) : ReadsViews (identPixel rs lv uv vv) lv uv vv := by
  intro m m' h1 h2 h3 x
  simp only [identPixel, fetch_congr hl h1, fetch_congr hu h2, fetch_congr hv h3]

theorem halfPixel_readsViews {rs : List Region} {lv uv vv : RowView} (hl : ViewOk lv) (hu : ViewOk uv)
    (hv : ViewOk vv) : ReadsViews (halfPixel rs lv uv vv) lv uv vv := by
  intro m m' h1 h2 h3 x
  simp only [halfPixel, fetch_congr hl h1, fetch_congr hu h2, fetch_congr hv h3]

theorem generalPixel_readsViews {rs : List Region} {lv uv vv : RowView} (dx : Int) (hl : ViewOk lv) (hu : ViewOk uv)
    (hv : ViewOk vv) : ReadsViews (generalPixel rs lv uv vv dx) lv uv vv := by
  intro m m' h1 h2 h3 x
  simp only [generalPixel, generalPixelAt, fetch_congr hl h1, fetch_congr hu h2, fetch_congr hv h3]

/-- The pixel of ROW.IDENT on ordinary memory (R87). -/
theorem identPixel_ok {rs : List Region} {lv uv vv : RowView} (hl : ViewOk lv) (hu : ViewOk uv) (hv : ViewOk vv)
    (ol : Ordinary rs (viewSpan lv)) (ou : Ordinary rs (viewSpan uv)) (ov : Ordinary rs (viewSpan vv)) (m : Memory)
    (x : Nat) :
    identPixel rs lv uv vv m x = .ok (pack (yuvPixel (sampleAt m lv (fetchIndex lv x))
      (sampleAt m uv (fetchIndex uv (asr x 1))) (sampleAt m vv (fetchIndex vv (asr x 1))))) := by
  simp only [identPixel, fetch_ok hl ol, fetch_ok hu ou, fetch_ok hv ov]; rfl

/-- The pixel of ROW.HALF on ordinary memory (R89). -/
theorem halfPixel_ok {rs : List Region} {lv uv vv : RowView} (hl : ViewOk lv) (hu : ViewOk uv) (hv : ViewOk vv)
    (ol : Ordinary rs (viewSpan lv)) (ou : Ordinary rs (viewSpan uv)) (ov : Ordinary rs (viewSpan vv)) (m : Memory)
    (x : Nat) :
    halfPixel rs lv uv vv m x = .ok (pack (yuvPixel
      (BitVec.ofInt 8 (asr (sampleInt (sampleAt m lv (fetchIndex lv (2 * (x : Int)))) +
        sampleInt (sampleAt m lv (fetchIndex lv (2 * (x : Int) + 1)))) 1))
      (sampleAt m uv (fetchIndex uv x)) (sampleAt m vv (fetchIndex vv x)))) := by
  simp only [halfPixel, fetch_ok hl ol, fetch_ok hu ou, fetch_ok hv ov]; rfl

/-- The pixel of ROW.GENERAL on ordinary memory (R88). -/
theorem generalPixel_ok {rs : List Region} {lv uv vv : RowView} (hl : ViewOk lv) (hu : ViewOk uv) (hv : ViewOk vv)
    (ol : Ordinary rs (viewSpan lv)) (ou : Ordinary rs (viewSpan uv)) (ov : Ordinary rs (viewSpan vv)) (dx : Int)
    (m : Memory) (x : Nat) :
    generalPixel rs lv uv vv dx m x = .ok (pack (yuvPixel
      (blend (phaseOf ((x : Int) * dx)) (sampleAt m lv (fetchIndex lv (lumaIndex ((x : Int) * dx))))
        (sampleAt m lv (fetchIndex lv (lumaIndex ((x : Int) * dx) + 1))))
      (sampleAt m uv (fetchIndex uv (chromaIndex ((x : Int) * dx))))
      (sampleAt m vv (fetchIndex vv (chromaIndex ((x : Int) * dx)))))) := by
  simp only [generalPixel, generalPixelAt, fetch_ok hl ol, fetch_ok hu ou, fetch_ok hv ov]; rfl

/-- A pixel write, when it answers, is the plain write. -/
theorem memWriteWord_eq {rs : List Region} {m m' : Memory} {d : Int} {v : Word} (h : memWriteWord rs m d v = .ok m') :
    accessWord rs d = .ok () ∧ m' = m.writeWord d v := by
  unfold memWriteWord at h
  split at h
  · rename_i u hu; cases u; cases h; exact ⟨hu, rfl⟩
  · cases h

/-- The row loop changes no byte outside the columns it runs over. -/
theorem rowLoop_frame {rs : List Region} {pix : Memory → Nat → Except Stop Word} {d : Int} (n : Nat) :
    ∀ (x : Nat) (m m' : Memory), rowLoop rs pix d n x m = .ok m' →
      ∀ a, (∀ k : Nat, 4 * x ≤ k → k < 4 * (x + n) → a ≠ addrOf (d + k)) → m'.read a = m.read a := by
  induction n with
  | zero => intro x m m' h a _; cases h; rfl
  | succ n ih =>
    intro x m m' h a ha
    simp only [rowLoop] at h
    split at h
    · cases h
    · split at h
      · cases h
      · rename_i v _ _ m1 hw
        obtain ⟨-, rfl⟩ := memWriteWord_eq hw
        rw [ih _ _ _ h a fun k h1 h2 => ha k (by omega) (by omega)]
        refine read_writeWord_off _ _ _ _ fun k hk => ?_
        have := ha (4 * x + k) (by omega) (by omega)
        rwa [show d + ((4 * x + k : Nat) : Int) = d + 4 * (x : Int) + (k : Int) by push_cast; ring] at this

/-- The row loop keeps the canonical form of memory. -/
theorem rowLoop_wf {rs : List Region} {pix : Memory → Nat → Except Stop Word} {d : Int} (n : Nat) :
    ∀ (x : Nat) (m m' : Memory), rowLoop rs pix d n x m = .ok m' → m.wf = true → m'.wf = true := by
  induction n with
  | zero => intro x m m' h hm; cases h; exact hm
  | succ n ih =>
    intro x m m' h hm
    simp only [rowLoop] at h
    split at h
    · cases h
    · split at h
      · cases h
      · rename_i v _ _ m1 hw
        obtain ⟨-, rfl⟩ := memWriteWord_eq hw
        exact ih _ _ _ h (wf_writeWord _ _ hm)

/-- A pixel function that the row's own writes do not change. -/
def StableOff (pix : Memory → Nat → Except Stop Word) (d : Int) (dw : Nat) (m : Memory) : Prop :=
  ∀ m1, (∀ a, (∀ k : Nat, k < 4 * dw → a ≠ addrOf (d + k)) → m1.read a = m.read a) → ∀ x, pix m1 x = pix m x

/-- When the row loop answers, every column's pixel was computed from memory as it was before the row, was written, and
is there at the end. -/
theorem rowLoop_value {rs : List Region} {pix : Memory → Nat → Except Stop Word} {d : Int} {dw : Nat}
    (hdw : 4 * dw ≤ 4294967296) {m0 : Memory} (hs : StableOff pix d dw m0) (n : Nat) :
    ∀ (x : Nat) (m m' : Memory), x + n ≤ dw →
      (∀ a, (∀ k : Nat, k < 4 * dw → a ≠ addrOf (d + k)) → m.read a = m0.read a) →
      rowLoop rs pix d n x m = .ok m' →
      ∀ j : Nat, x ≤ j → j < x + n →
        pix m0 j = .ok (m'.readWord (d + 4 * (j : Int))) ∧ accessWord rs (d + 4 * (j : Int)) = .ok () := by
  induction n with
  | zero => intro x m m' _ _ _ j h1 h2; omega
  | succ n ih =>
    intro x m m' hx hm h j h1 h2
    simp only [rowLoop] at h
    split at h
    · cases h
    · rename_i v hv
      split at h
      · cases h
      · rename_i m1 hw
        obtain ⟨hacc, rfl⟩ := memWriteWord_eq hw
        have hm1 : ∀ a, (∀ k : Nat, k < 4 * dw → a ≠ addrOf (d + k)) →
            (m.writeWord (d + 4 * (x : Int)) v).read a = m0.read a := by
          intro a ha
          rw [read_writeWord_off _ _ _ _ fun k hk => ?_]
          · exact hm a ha
          · have := ha (4 * x + k) (by omega)
            rwa [show d + ((4 * x + k : Nat) : Int) = d + 4 * (x : Int) + (k : Int) by push_cast; ring] at this
        rcases Nat.eq_or_lt_of_le h1 with rfl | hlt
        · refine ⟨?_, hacc⟩
          rw [← hs m hm, hv]
          congr 1
          rw [readWord_congr (m' := m.writeWord (d + 4 * (x : Int)) v), readWord_writeWord]
          intro k hk
          refine rowLoop_frame _ _ _ _ h _ fun k' h1' h2' => ?_
          rw [show d + 4 * (x : Int) + (k : Int) = d + ((4 * x + k : Nat) : Int) by push_cast; ring]
          unfold addrOf; omega
        · exact ih _ _ _ (by omega) hm1 h j hlt (by omega)

/-- The row loop answers when every column can be computed and written. -/
theorem rowLoop_ok {rs : List Region} {pix : Memory → Nat → Except Stop Word} {d : Int} {dw : Nat} {m0 : Memory}
    (hs : StableOff pix d dw m0) (hp : ∀ x, x < dw → ∃ v, pix m0 x = .ok v)
    (ha : ∀ x : Nat, x < dw → accessWord rs (d + 4 * (x : Int)) = .ok ()) (n : Nat) :
    ∀ (x : Nat) (m : Memory), x + n ≤ dw →
      (∀ a, (∀ k : Nat, k < 4 * dw → a ≠ addrOf (d + k)) → m.read a = m0.read a) →
      ∃ m', rowLoop rs pix d n x m = .ok m' := by
  induction n with
  | zero => intro x m _ _; exact ⟨m, rfl⟩
  | succ n ih =>
    intro x m hx hm
    obtain ⟨v, hv⟩ := hp x (by omega)
    simp only [rowLoop, hs m hm, hv, memWriteWord, ha x (by omega)]
    refine ih _ _ (by omega) fun a h => ?_
    rw [read_writeWord_off _ _ _ _ fun k hk => ?_]
    · exact hm a h
    · have := h (4 * x + k) (by omega)
      rwa [show d + ((4 * x + k : Nat) : Int) = d + 4 * (x : Int) + (k : Int) by push_cast; ring] at this

/-- Everything a row operation can do when it answers a next state: memory changed by the row loop, nothing else. -/
theorem runRow_next {pix : Memory → Nat → Except Stop Word} {d : Int} {dw : Nat} {s t : State}
    (h : runRow pix d dw s = .next t) : ∃ m, rowLoop s.regions pix d dw 0 s.mem = .ok m ∧ t = { s with mem := m } := by
  unfold runRow at h
  split at h <;> cases h
  exact ⟨_, ‹_›, rfl⟩

/-- A row lies apart from a view, so the row's own writes do not change the view's samples. -/
theorem agreeOn_of_apart {m m1 : Memory} {vw : RowView} {d : Int} {dw : Nat} (hdw : 4 * dw ≤ 4294967296)
    (h : Apart (rowSpan d dw) (viewSpan vw))
    (hm : ∀ a, (∀ k : Nat, k < 4 * dw → a ≠ addrOf (d + k)) → m1.read a = m.read a) : AgreeOn m1 m vw := by
  intro a ha
  by_cases hlt : a < 4294967296
  · refine hm a fun k hk he => ?_
    have := h a hlt (by rw [he]; exact spanAt_holds_mem hk hdw)
    rw [this] at ha; cases ha
  · refine hm a fun k hk he => hlt ?_
    rw [he]; exact addrOf_lt _

theorem stableOff_of_apart {pix : Memory → Nat → Except Stop Word} {lv uv vv : RowView} {d : Int} {dw : Nat}
    (hdw : 4 * dw ≤ 4294967296) (hp : ReadsViews pix lv uv vv)
    (al : Apart (rowSpan d dw) (viewSpan lv)) (au : Apart (rowSpan d dw) (viewSpan uv))
    (av : Apart (rowSpan d dw) (viewSpan vv)) (m : Memory) : StableOff pix d dw m :=
  fun _ hm x => hp _ _ (agreeOn_of_apart hdw al hm) (agreeOn_of_apart hdw au hm) (agreeOn_of_apart hdw av hm) x

/-- Every pixel of a row of ordinary memory can be written (R48). -/
theorem accessWord_of_ordinary {rs : List Region} {d : Int} {dw : Nat} (hdw : 4 * dw ≤ 4294967296)
    (h : Ordinary rs (rowSpan d dw)) {x : Nat} (hx : x < dw) : accessWord rs (d + 4 * (x : Int)) = .ok () := by
  have key : ∀ k : Nat, k < 4 → access rs (addrOf (d + 4 * (x : Int) + (k : Int))) = .ok () := by
    intro k hk
    have : (rowSpan d dw).holds (addrOf (d + ((4 * x + k : Nat) : Int))) = true := spanAt_holds_mem (by omega) hdw
    rw [show d + ((4 * x + k : Nat) : Int) = d + 4 * (x : Int) + (k : Int) by push_cast; ring] at this
    unfold access; rw [h _ (addrOf_lt _) this]
  have h0 := key 0 (by omega); have h1 := key 1 (by omega); have h2 := key 2 (by omega); have h3 := key 3 (by omega)
  simp only [Int.add_zero, Nat.cast_ofNat, Nat.cast_one, Nat.cast_zero] at h0 h1 h2 h3
  unfold accessWord; rw [h0, h1, h2, h3]

/-- The clamp of FETCH, as the nearest index of the row (R82). -/
theorem fetchIndex_nearest (vw : RowView) (k : Int) (h : 1 ≤ vw.n) : fetchIndex vw k = nearestIndex vw k := by
  unfold fetchIndex nearestIndex clamp
  cases vw.rtl <;> simp only [Bool.false_eq_true, if_false, if_true] <;> split_ifs <;> omega

/-- What the check of the views says, as propositions (R81, R94, R100). -/
theorem okViews_ok {rtl : Bool} {lv uv vv : RowView} (h : okViews rtl lv uv vv = true) :
    (ViewOk lv ∧ ViewOk uv ∧ ViewOk vv) ∧ (lv.n ≤ 65535 ∧ uv.n = (lv.n + 1) / 2 ∧ vv.n = (lv.n + 1) / 2) ∧
      lv.rtl = rtl ∧ uv.rtl = rtl ∧ vv.rtl = rtl := by
  simp only [okViews, okDim, Bool.and_eq_true, decide_eq_true_eq, beq_iff_eq] at h
  unfold ViewOk
  obtain ⟨⟨⟨⟨⟨⟨h1, h2⟩, h3⟩, h4⟩, h5⟩, h6⟩, h7⟩ := h
  exact ⟨⟨⟨h1, by omega⟩, ⟨by omega, by omega⟩, ⟨by omega, by omega⟩⟩, ⟨h2, h3, h4⟩, h5, h6, h7⟩

/-- A row operation on ordinary memory whose row lies apart from its views: it answers, every column holds its pixel
computed from memory as it was before, and every other byte is as before. -/
theorem runRow_writes {pix : Memory → Nat → Except Stop Word} {lv uv vv : RowView} {d : Int} {dw : Nat} {s : State}
    (hdw : 4 * dw ≤ 4294967296) (hr : RowReady s.regions lv uv vv d dw) (hv : ReadsViews pix lv uv vv)
    {f : Nat → Word} (hf : ∀ x, pix s.mem x = .ok (f x)) :
    ∃ m, runRow pix d dw s = .next { s with mem := m } ∧
      (∀ x : Nat, x < dw → m.readWord (d + 4 * (x : Int)) = f x) ∧
      ∀ a, (rowSpan d dw).holds a = false → m.read a = s.mem.read a := by
  obtain ⟨⟨-, -, -, od⟩, al, au, av⟩ := hr
  have hs := stableOff_of_apart hdw hv al au av s.mem
  obtain ⟨m, hm⟩ := rowLoop_ok hs (fun x _ => ⟨_, hf x⟩) (fun _ hx => accessWord_of_ordinary hdw od hx) dw 0 s.mem
    (by omega) (fun _ _ => rfl)
  refine ⟨m, by simp only [runRow, hm], fun x hx => ?_, fun a ha => ?_⟩
  · have := (rowLoop_value hdw hs dw 0 s.mem m (by omega) (fun _ _ => rfl) hm x (by omega) (by omega)).1
    rw [hf x] at this; exact (Except.ok.inj this).symm
  · refine rowLoop_frame _ _ _ _ hm a fun k _ hk he => ?_
    rw [he, show (rowSpan d dw).holds (addrOf (d + (k : Int))) = true from spanAt_holds_mem (by omega) hdw] at ha
    cases ha

end Sys2Proof.Machine
end

