-- ==== Sys2Proof/Laws/Geometry.lean ====
section
/-! SUPPORT. The geometry of a command: the checks' consequences, the row views as rows of the planes, and the bytes a row operation touches as bytes of the sample and destination sets. -/

namespace Sys2Proof.Machine

theorem srcW_lt (a : Args) : a.srcW < 65536 := (a.srcSize.extractLsb' 0 16).isLt
theorem srcH_lt (a : Args) : a.srcH < 65536 := (a.srcSize.extractLsb' 16 16).isLt
theorem dstW_lt (a : Args) : a.dstW < 65536 := (a.dstSize.extractLsb' 0 16).isLt
theorem dstH_lt (a : Args) : a.dstH < 65536 := (a.dstSize.extractLsb' 16 16).isLt

/-- What the argument checks leave (R111): no dimension is zero. -/
theorem dims_pos {a : Args} (h : argError a = none) : 1 ≤ a.srcW ∧ 1 ≤ a.srcH ∧ 1 ≤ a.dstW ∧ 1 ≤ a.dstH := by
  unfold argError at h
  split at h
  · cases h
  · rename_i hz; push Not at hz; omega

/-- A chroma plane has a column (R94). -/
theorem chromaW_pos {w : Nat} (h : 1 ≤ w) : 1 ≤ chromaW w := by unfold chromaW; omega

/-- The source row of a destination row lies in the source (R98). -/
theorem sourceRow_lt {h dh y : Nat} (hh : 1 ≤ h) (hy : y < dh) : sourceRow h dh y < h := by
  unfold sourceRow
  rw [Nat.div_lt_iff_lt_mul (by omega), Nat.mul_comm]
  exact Nat.mul_lt_mul_of_pos_left hy hh

/-- The chroma row of a source row lies in the chroma plane (R99). -/
theorem chromaRow_lt {l : Layout} {h s : Nat} (hs : s < h) : chromaRow l s < chromaH l h := by
  cases l <;> simp only [chromaRow, chromaH] <;> omega

/-- A normalised origin and stride taken to row `s` begin, for the leftmost sample, at row `absRow` of the plane (R105). -/
theorem origin_row (rtl btt : Bool) (base stride : Int) (cols rows s : Nat) :
    originOf rtl btt base stride cols rows + (s : Int) * strideFor btt stride =
      base + absRow btt rows s * stride + (if rtl then (cols : Int) - 1 else 0) := by
  cases rtl <;> cases btt <;> simp only [originOf, strideFor, absRow, if_true, Bool.false_eq_true, if_false] <;> ring

theorem viewStart_of {o : Int} {n : Nat} {rtl : Bool} {b : Int} (h : o = b + (if rtl then (n : Int) - 1 else 0)) :
    viewStart ⟨o, n, rtl⟩ = b := by
  cases rtl <;> simp only [viewStart, if_true, Bool.false_eq_true, if_false] at * <;> omega

/-- The luma view of a destination row is row `absRow` of the luma plane (R105). -/
theorem lumaView_start (sn : Snapshot) (y : Nat) :
    viewStart (lumaView sn (normalise sn) y) = baseOf sn.args.yBase +
      absRow (rotBtt sn.rotation) sn.args.srcH (sourceRow sn.args.srcH sn.args.dstH y) * strideOf sn.args.yStride :=
  viewStart_of (origin_row _ _ _ _ _ _ _)

/-- The U view of a destination row is row `absRow` of the U plane (R105). -/
theorem uView_start (sn : Snapshot) (y : Nat) :
    viewStart (uView sn (normalise sn) y) = baseOf sn.args.uBase +
      absRow (rotBtt sn.rotation) (chromaH sn.layout sn.args.srcH)
        (chromaRow sn.layout (sourceRow sn.args.srcH sn.args.dstH y)) * strideOf sn.args.uStride :=
  viewStart_of (origin_row _ _ _ _ _ _ _)

/-- The V view of a destination row is row `absRow` of the V plane (R105). -/
theorem vView_start (sn : Snapshot) (y : Nat) :
    viewStart (vView sn (normalise sn) y) = baseOf sn.args.vBase +
      absRow (rotBtt sn.rotation) (chromaH sn.layout sn.args.srcH)
        (chromaRow sn.layout (sourceRow sn.args.srcH sn.args.dstH y)) * strideOf sn.args.vStride :=
  viewStart_of (origin_row _ _ _ _ _ _ _)

/-- A row counted from the top is a row of the plane. -/
theorem absRow_in (btt : Bool) {rows s : Nat} (h : s < rows) : ∃ r : Nat, r < rows ∧ absRow btt rows s = (r : Int) := by
  cases btt
  · exact ⟨s, h, rfl⟩
  · exact ⟨rows - 1 - s, by omega, by simp only [absRow, if_true]; omega⟩

theorem lumaView_in_samples {sn : Snapshot} {y a : Nat} (hc : argError sn.args = none) (hy : y < sn.args.dstH)
    (h : (viewSpan (lumaView sn (normalise sn) y)).holds a = true) :
    spansHold (sampleSpans sn.layout sn.args) a = true := by
  have hp := dims_pos hc
  obtain ⟨r, hr, he⟩ := absRow_in (rotBtt sn.rotation) (sourceRow_lt hp.2.1 hy)
  refine spansHold_iff.2 ⟨_, ?_, h⟩
  simp only [sampleSpans, List.mem_append]
  exact .inl (mem_planeSpans.2 ⟨r, hr, by rw [viewSpan, lumaView_start, he]; rfl⟩)

theorem uView_in_samples {sn : Snapshot} {y a : Nat} (hc : argError sn.args = none) (hy : y < sn.args.dstH)
    (h : (viewSpan (uView sn (normalise sn) y)).holds a = true) :
    spansHold (sampleSpans sn.layout sn.args) a = true := by
  have hp := dims_pos hc
  obtain ⟨r, hr, he⟩ := absRow_in (rotBtt sn.rotation) (chromaRow_lt (l := sn.layout) (sourceRow_lt hp.2.1 hy))
  refine spansHold_iff.2 ⟨_, ?_, h⟩
  simp only [sampleSpans, List.mem_append]
  exact .inr (.inl (mem_planeSpans.2 ⟨r, hr, by rw [viewSpan, uView_start, he]; rfl⟩))

theorem vView_in_samples {sn : Snapshot} {y a : Nat} (hc : argError sn.args = none) (hy : y < sn.args.dstH)
    (h : (viewSpan (vView sn (normalise sn) y)).holds a = true) :
    spansHold (sampleSpans sn.layout sn.args) a = true := by
  have hp := dims_pos hc
  obtain ⟨r, hr, he⟩ := absRow_in (rotBtt sn.rotation) (chromaRow_lt (l := sn.layout) (sourceRow_lt hp.2.1 hy))
  refine spansHold_iff.2 ⟨_, ?_, h⟩
  simp only [sampleSpans, List.mem_append]
  exact .inr (.inr (mem_planeSpans.2 ⟨r, hr, by rw [viewSpan, vView_start, he]; rfl⟩))

theorem rowSpan_mem {a : Args} {y : Nat} (hy : y < a.dstH) : rowSpan (dstRow a y) a.dstW ∈ dstSpans a :=
  mem_planeSpans.2 ⟨y, hy, rfl⟩

/-- A destination row's bytes are bytes of the destination set (R46). -/
theorem row_in_dst {a : Args} {y b : Nat} (hy : y < a.dstH) (h : (rowSpan (dstRow a y) a.dstW).holds b = true) :
    spansHold (dstSpans a) b = true := spansHold_iff.2 ⟨_, rowSpan_mem hy, h⟩

theorem lumaView_ok {sn : Snapshot} {y : Nat} (g : Normalised) (hc : argError sn.args = none) : ViewOk (lumaView sn g y) :=
  ⟨(dims_pos hc).1, by have := srcW_lt sn.args; simp only [lumaView]; omega⟩

theorem chroma_ok {a : Args} (hc : argError a = none) : 1 ≤ chromaW a.srcW ∧ chromaW a.srcW ≤ 4294967296 :=
  ⟨chromaW_pos (dims_pos hc).1, by have := srcW_lt a; unfold chromaW; omega⟩

theorem uView_ok {sn : Snapshot} {y : Nat} (g : Normalised) (hc : argError sn.args = none) : ViewOk (uView sn g y) := chroma_ok hc
theorem vView_ok {sn : Snapshot} {y : Nat} (g : Normalised) (hc : argError sn.args = none) : ViewOk (vView sn g y) := chroma_ok hc

theorem row_fits (a : Args) : 4 * a.dstW ≤ 4294967296 := by have := dstW_lt a; omega

theorem planeSpans_start {base stride : Int} {cols rows : Nat} {i : Span} (h : i ∈ planeSpans base stride cols rows) :
    i.start < 4294967296 ∧ i.len = cols := by
  obtain ⟨r, -, rfl⟩ := mem_planeSpans.1 h; exact ⟨addrOf_lt _, rfl⟩

theorem sampleSpans_start {l : Layout} {a : Args} (hc : argError a = none) {i : Span} (h : i ∈ sampleSpans l a) :
    i.start < 4294967296 ∧ 0 < i.len := by
  have hw := (dims_pos hc).1
  have hcw := chromaW_pos hw
  simp only [sampleSpans, List.mem_append] at h
  rcases h with h | h | h <;> have := planeSpans_start h <;> exact ⟨this.1, by omega⟩

/-- The overlap check says exactly whether the destination set and the sample sets share a byte (R55). -/
theorem overlap_iff {l : Layout} {a : Args} (hc : argError a = none) :
    spansMeet (dstSpans a) (sampleSpans l a) = true ↔
      ∃ b, b < 4294967296 ∧ spansHold (dstSpans a) b = true ∧ spansHold (sampleSpans l a) b = true := by
  have hp := dims_pos hc
  have key : ∀ i ∈ dstSpans a, ∀ j ∈ sampleSpans l a,
      (i.meets j = true ↔ ∃ b, b < 4294967296 ∧ i.holds b = true ∧ j.holds b = true) := by
    intro i hi j hj
    have h1 := planeSpans_start hi
    have h2 := sampleSpans_start hc hj
    exact meets_iff h1.1 h2.1 (by omega) h2.2
  rw [spansMeet_iff]
  constructor
  · rintro ⟨i, hi, j, hj, h⟩
    obtain ⟨b, hb, h1, h2⟩ := (key i hi j hj).1 h
    exact ⟨b, hb, spansHold_iff.2 ⟨i, hi, h1⟩, spansHold_iff.2 ⟨j, hj, h2⟩⟩
  · rintro ⟨b, hb, h1, h2⟩
    obtain ⟨i, hi, h1⟩ := spansHold_iff.1 h1
    obtain ⟨j, hj, h2⟩ := spansHold_iff.1 h2
    exact ⟨i, hi, j, hj, (key i hi j hj).2 ⟨b, hb, h1, h2⟩⟩

/-- A destination byte is no sample byte, once the sets lie apart. -/
theorem dst_not_sample {l : Layout} {a : Args} (hc : argError a = none) (h : setsApart l a) {b : Nat}
    (hb : b < 4294967296) (hd : spansHold (dstSpans a) b = true) : spansHold (sampleSpans l a) b = false := by
  cases hs : spansHold (sampleSpans l a) b with
  | false => rfl
  | true =>
    have := (overlap_iff (l := l) hc).2 ⟨b, hb, hd, hs⟩
    rw [h.1] at this; cases this

/-- Two different destination rows lie apart (R54). -/
theorem rows_apart {l : Layout} {a : Args} (hc : argError a = none) (h : setsApart l a) {y y' : Nat}
    (hy : y < a.dstH) (hy' : y' < a.dstH) (hne : y ≠ y') :
    Apart (rowSpan (dstRow a y) a.dstW) (rowSpan (dstRow a y') a.dstW) :=
  planeSpans_rows_apart (by have := dims_pos hc; omega) h.2 hy hy' hne

end Sys2Proof.Machine
end

