-- ==== Sys2Proof/Laws/State.lean ====
section
/-! SUPPORT. One lemma per field of State and per state update of the model, each true by definition, so that no proof unfolds an update. -/

namespace Sys2Proof.Machine

@[simp] theorem setOverrun_args (s : State) : (setOverrun s).args = s.args := rfl
@[simp] theorem setOverrun_cmd (s : State) : (setOverrun s).cmd = s.cmd := rfl
@[simp] theorem setOverrun_done (s : State) : (setOverrun s).done = s.done := rfl
@[simp] theorem setOverrun_overrun (s : State) : (setOverrun s).overrun = true := rfl
@[simp] theorem setOverrun_err (s : State) : (setOverrun s).err = s.err := rfl
@[simp] theorem setOverrun_phase (s : State) : (setOverrun s).phase = s.phase := rfl
@[simp] theorem setOverrun_mem (s : State) : (setOverrun s).mem = s.mem := rfl
@[simp] theorem setOverrun_satOut (s : State) : (setOverrun s).satOut = s.satOut := rfl
@[simp] theorem setOverrun_pixelOut (s : State) : (setOverrun s).pixelOut = s.pixelOut := rfl
@[simp] theorem setOverrun_busData (s : State) : (setOverrun s).busData = s.busData := rfl
@[simp] theorem setOverrun_posted (s : State) : (setOverrun s).posted = s.posted := rfl
@[simp] theorem setOverrun_regions (s : State) : (setOverrun s).regions = s.regions := rfl
@[simp] theorem setOverrun_inputs (s : State) : (setOverrun s).inputs = s.inputs := rfl
@[simp] theorem setOverrun_nonce (s : State) : (setOverrun s).nonce = s.nonce := rfl

@[simp] theorem beginIssue_args (w : Word) (s : State) : (beginIssue w s).args = s.args := rfl
@[simp] theorem beginIssue_cmd (w : Word) (s : State) : (beginIssue w s).cmd = w := rfl
@[simp] theorem beginIssue_done (w : Word) (s : State) : (beginIssue w s).done = false := rfl
@[simp] theorem beginIssue_overrun (w : Word) (s : State) : (beginIssue w s).overrun = false := rfl
@[simp] theorem beginIssue_err (w : Word) (s : State) : (beginIssue w s).err = .none := rfl
@[simp] theorem beginIssue_phase (w : Word) (s : State) : (beginIssue w s).phase = s.phase := rfl
@[simp] theorem beginIssue_mem (w : Word) (s : State) : (beginIssue w s).mem = s.mem := rfl
@[simp] theorem beginIssue_satOut (w : Word) (s : State) : (beginIssue w s).satOut = s.satOut := rfl
@[simp] theorem beginIssue_pixelOut (w : Word) (s : State) : (beginIssue w s).pixelOut = s.pixelOut := rfl
@[simp] theorem beginIssue_busData (w : Word) (s : State) : (beginIssue w s).busData = s.busData := rfl
@[simp] theorem beginIssue_posted (w : Word) (s : State) : (beginIssue w s).posted = s.posted := rfl
@[simp] theorem beginIssue_regions (w : Word) (s : State) : (beginIssue w s).regions = s.regions := rfl
@[simp] theorem beginIssue_inputs (w : Word) (s : State) : (beginIssue w s).inputs = s.inputs := rfl
@[simp] theorem beginIssue_nonce (w : Word) (s : State) : (beginIssue w s).nonce = s.nonce := rfl

@[simp] theorem reject_args (c : ErrorCode) (s : State) : (reject c s).args = s.args := rfl
@[simp] theorem reject_cmd (c : ErrorCode) (s : State) : (reject c s).cmd = s.cmd := rfl
@[simp] theorem reject_done (c : ErrorCode) (s : State) : (reject c s).done = s.done := rfl
@[simp] theorem reject_overrun (c : ErrorCode) (s : State) : (reject c s).overrun = s.overrun := rfl
@[simp] theorem reject_err (c : ErrorCode) (s : State) : (reject c s).err = c := rfl
@[simp] theorem reject_phase (c : ErrorCode) (s : State) : (reject c s).phase = s.phase := rfl
@[simp] theorem reject_mem (c : ErrorCode) (s : State) : (reject c s).mem = s.mem := rfl
@[simp] theorem reject_satOut (c : ErrorCode) (s : State) : (reject c s).satOut = s.satOut := rfl
@[simp] theorem reject_pixelOut (c : ErrorCode) (s : State) : (reject c s).pixelOut = s.pixelOut := rfl
@[simp] theorem reject_busData (c : ErrorCode) (s : State) : (reject c s).busData = s.busData := rfl
@[simp] theorem reject_posted (c : ErrorCode) (s : State) : (reject c s).posted = s.posted := rfl
@[simp] theorem reject_regions (c : ErrorCode) (s : State) : (reject c s).regions = s.regions := rfl
@[simp] theorem reject_inputs (c : ErrorCode) (s : State) : (reject c s).inputs = s.inputs := rfl
@[simp] theorem reject_nonce (c : ErrorCode) (s : State) : (reject c s).nonce = s.nonce := rfl

@[simp] theorem accept_args (l : Layout) (r : Rotation) (s : State) : (accept l r s).args = s.args := rfl
@[simp] theorem accept_cmd (l : Layout) (r : Rotation) (s : State) : (accept l r s).cmd = s.cmd := rfl
@[simp] theorem accept_done (l : Layout) (r : Rotation) (s : State) : (accept l r s).done = s.done := rfl
@[simp] theorem accept_overrun (l : Layout) (r : Rotation) (s : State) : (accept l r s).overrun = s.overrun := rfl
@[simp] theorem accept_err (l : Layout) (r : Rotation) (s : State) : (accept l r s).err = s.err := rfl
@[simp] theorem accept_phase (l : Layout) (r : Rotation) (s : State) : (accept l r s).phase = .busy (startEngine ⟨l, r, s.args⟩ s.mem) := rfl
@[simp] theorem accept_mem (l : Layout) (r : Rotation) (s : State) : (accept l r s).mem = s.mem := rfl
@[simp] theorem accept_satOut (l : Layout) (r : Rotation) (s : State) : (accept l r s).satOut = s.satOut := rfl
@[simp] theorem accept_pixelOut (l : Layout) (r : Rotation) (s : State) : (accept l r s).pixelOut = s.pixelOut := rfl
@[simp] theorem accept_busData (l : Layout) (r : Rotation) (s : State) : (accept l r s).busData = s.busData := rfl
@[simp] theorem accept_posted (l : Layout) (r : Rotation) (s : State) : (accept l r s).posted = s.posted := rfl
@[simp] theorem accept_regions (l : Layout) (r : Rotation) (s : State) : (accept l r s).regions = s.regions := rfl
@[simp] theorem accept_inputs (l : Layout) (r : Rotation) (s : State) : (accept l r s).inputs = s.inputs := rfl
@[simp] theorem accept_nonce (l : Layout) (r : Rotation) (s : State) : (accept l r s).nonce = s.nonce := rfl

@[simp] theorem complete_args (s : State) : (complete s).args = s.args := rfl
@[simp] theorem complete_cmd (s : State) : (complete s).cmd = s.cmd := rfl
@[simp] theorem complete_done (s : State) : (complete s).done = true := rfl
@[simp] theorem complete_overrun (s : State) : (complete s).overrun = s.overrun := rfl
@[simp] theorem complete_err (s : State) : (complete s).err = s.err := rfl
@[simp] theorem complete_phase (s : State) : (complete s).phase = .idle := rfl
@[simp] theorem complete_mem (s : State) : (complete s).mem = s.mem := rfl
@[simp] theorem complete_satOut (s : State) : (complete s).satOut = s.satOut := rfl
@[simp] theorem complete_pixelOut (s : State) : (complete s).pixelOut = s.pixelOut := rfl
@[simp] theorem complete_busData (s : State) : (complete s).busData = s.busData := rfl
@[simp] theorem complete_posted (s : State) : (complete s).posted = s.posted := rfl
@[simp] theorem complete_regions (s : State) : (complete s).regions = s.regions := rfl
@[simp] theorem complete_inputs (s : State) : (complete s).inputs = s.inputs := rfl
@[simp] theorem complete_nonce (s : State) : (complete s).nonce = s.nonce := rfl

@[simp] theorem rowDone_args (e : Engine) (j : Nat) (s : State) : (rowDone e j s).args = s.args := rfl
@[simp] theorem rowDone_cmd (e : Engine) (j : Nat) (s : State) : (rowDone e j s).cmd = s.cmd := rfl
@[simp] theorem rowDone_done (e : Engine) (j : Nat) (s : State) : (rowDone e j s).done = s.done := rfl
@[simp] theorem rowDone_overrun (e : Engine) (j : Nat) (s : State) : (rowDone e j s).overrun = s.overrun := rfl
@[simp] theorem rowDone_err (e : Engine) (j : Nat) (s : State) : (rowDone e j s).err = s.err := rfl
@[simp] theorem rowDone_phase (e : Engine) (j : Nat) (s : State) : (rowDone e j s).phase = .busy { e with pending := e.pending.eraseIdx j } := rfl
@[simp] theorem rowDone_mem (e : Engine) (j : Nat) (s : State) : (rowDone e j s).mem = s.mem := rfl
@[simp] theorem rowDone_satOut (e : Engine) (j : Nat) (s : State) : (rowDone e j s).satOut = s.satOut := rfl
@[simp] theorem rowDone_pixelOut (e : Engine) (j : Nat) (s : State) : (rowDone e j s).pixelOut = s.pixelOut := rfl
@[simp] theorem rowDone_busData (e : Engine) (j : Nat) (s : State) : (rowDone e j s).busData = s.busData := rfl
@[simp] theorem rowDone_posted (e : Engine) (j : Nat) (s : State) : (rowDone e j s).posted = s.posted := rfl
@[simp] theorem rowDone_regions (e : Engine) (j : Nat) (s : State) : (rowDone e j s).regions = s.regions := rfl
@[simp] theorem rowDone_inputs (e : Engine) (j : Nat) (s : State) : (rowDone e j s).inputs = s.inputs := rfl
@[simp] theorem rowDone_nonce (e : Engine) (j : Nat) (s : State) : (rowDone e j s).nonce = s.nonce := rfl
@[simp] theorem engineStuck_args (e : Engine) (s : State) : (engineStuck e s).args = s.args := rfl
@[simp] theorem engineStuck_cmd (e : Engine) (s : State) : (engineStuck e s).cmd = s.cmd := rfl
@[simp] theorem engineStuck_done (e : Engine) (s : State) : (engineStuck e s).done = s.done := rfl
@[simp] theorem engineStuck_overrun (e : Engine) (s : State) : (engineStuck e s).overrun = s.overrun := rfl
@[simp] theorem engineStuck_err (e : Engine) (s : State) : (engineStuck e s).err = s.err := rfl
@[simp] theorem engineStuck_phase (e : Engine) (s : State) : (engineStuck e s).phase = .busy { e with stuck := true } := rfl
@[simp] theorem engineStuck_mem (e : Engine) (s : State) : (engineStuck e s).mem = s.mem := rfl
@[simp] theorem engineStuck_satOut (e : Engine) (s : State) : (engineStuck e s).satOut = s.satOut := rfl
@[simp] theorem engineStuck_pixelOut (e : Engine) (s : State) : (engineStuck e s).pixelOut = s.pixelOut := rfl
@[simp] theorem engineStuck_busData (e : Engine) (s : State) : (engineStuck e s).busData = s.busData := rfl
@[simp] theorem engineStuck_posted (e : Engine) (s : State) : (engineStuck e s).posted = s.posted := rfl
@[simp] theorem engineStuck_regions (e : Engine) (s : State) : (engineStuck e s).regions = s.regions := rfl
@[simp] theorem engineStuck_inputs (e : Engine) (s : State) : (engineStuck e s).inputs = s.inputs := rfl
@[simp] theorem engineStuck_nonce (e : Engine) (s : State) : (engineStuck e s).nonce = s.nonce := rfl

@[simp] theorem placeCommand_args (w : Word) (s : State) : (placeCommand w s).args = s.args := rfl
@[simp] theorem placeCommand_cmd (w : Word) (s : State) : (placeCommand w s).cmd = s.cmd := rfl
@[simp] theorem placeCommand_done (w : Word) (s : State) : (placeCommand w s).done = s.done := rfl
@[simp] theorem placeCommand_overrun (w : Word) (s : State) : (placeCommand w s).overrun = s.overrun := rfl
@[simp] theorem placeCommand_err (w : Word) (s : State) : (placeCommand w s).err = s.err := rfl
@[simp] theorem placeCommand_phase (w : Word) (s : State) : (placeCommand w s).phase = .idle := rfl
@[simp] theorem placeCommand_mem (w : Word) (s : State) : (placeCommand w s).mem = s.mem := rfl
@[simp] theorem placeCommand_satOut (w : Word) (s : State) : (placeCommand w s).satOut = s.satOut := rfl
@[simp] theorem placeCommand_pixelOut (w : Word) (s : State) : (placeCommand w s).pixelOut = s.pixelOut := rfl
@[simp] theorem placeCommand_busData (w : Word) (s : State) : (placeCommand w s).busData = s.busData := rfl
@[simp] theorem placeCommand_posted (w : Word) (s : State) : (placeCommand w s).posted = s.posted := rfl
@[simp] theorem placeCommand_regions (w : Word) (s : State) : (placeCommand w s).regions = s.regions := rfl
@[simp] theorem placeCommand_inputs (w : Word) (s : State) : (placeCommand w s).inputs = .regWrite 0x00#6 4 w :: s.inputs := rfl
@[simp] theorem placeCommand_nonce (w : Word) (s : State) : (placeCommand w s).nonce = s.nonce := rfl

@[simp] theorem resetInput_args (s : State) : (resetInput s).args = Args.reset := rfl
@[simp] theorem resetInput_cmd (s : State) : (resetInput s).cmd = 0 := rfl
@[simp] theorem resetInput_done (s : State) : (resetInput s).done = false := rfl
@[simp] theorem resetInput_overrun (s : State) : (resetInput s).overrun = false := rfl
@[simp] theorem resetInput_err (s : State) : (resetInput s).err = .none := rfl
@[simp] theorem resetInput_phase (s : State) : (resetInput s).phase = .idle := rfl
@[simp] theorem resetInput_mem (s : State) : (resetInput s).mem = resetMem s := rfl
@[simp] theorem resetInput_satOut (s : State) : (resetInput s).satOut = 0 := rfl
@[simp] theorem resetInput_pixelOut (s : State) : (resetInput s).pixelOut = ⟨0, 0, 0, 0⟩ := rfl
@[simp] theorem resetInput_busData (s : State) : (resetInput s).busData = s.busData := rfl
@[simp] theorem resetInput_posted (s : State) : (resetInput s).posted = s.posted := rfl
@[simp] theorem resetInput_regions (s : State) : (resetInput s).regions = s.regions := rfl
@[simp] theorem resetInput_inputs (s : State) : (resetInput s).inputs = s.inputs := rfl
@[simp] theorem resetInput_nonce (s : State) : (resetInput s).nonce = s.nonce + 1 := rfl

end Sys2Proof.Machine
end

