-- ==== Sys2Proof/Laws/Commands.lean ====
section
/-! SUPPORT. What executing a command and writing a register can do, said once; the checks and duties of acceptance against the register bits and the byte sets. -/

namespace Sys2Proof.Machine

/-- The eight supported commands issue (R91, R92). -/
theorem exec_supported {l : Layout} {r : Rotation} (h : rotSupported r = true) (s : State) :
    exec (commandOf l r) s = issueScale l r s := by
  cases r <;> first | (cases h; done) | skip
  all_goals (cases l <;> rfl)

/-- The eight unsupported rotations are rejected (R110). -/
theorem exec_unsupported {l : Layout} {r : Rotation} (h : rotSupported r = false) (s : State) :
    exec (commandOf l r) s = issueRejected (commandWord l r) .unsupportedRotation s := by
  cases r <;> first | (cases h; done) | skip
  all_goals (cases l <;> rfl)

theorem issueRejected_idle {w : Word} {c : ErrorCode} {s : State} (h : s.phase = .idle) :
    issueRejected w c s = .next (rejected w c s) := by simp only [issueRejected, h]; rfl

/-- Every command issued while BUSY is dropped (R39). -/
theorem exec_command_busy {s : State} {e : Engine} (l : Layout) (r : Rotation) (h : s.phase = .busy e) :
    exec (commandOf l r) s = .next (setOverrun s) := by
  cases hr : rotSupported r with
  | true => rw [exec_supported hr]; simp only [issueScale, h]
  | false => rw [exec_unsupported hr]; simp only [issueRejected, h]

/-- Everything that issuing a supported command while IDLE can do when it answers a next state (R108). -/
theorem issueScale_next {l : Layout} {r : Rotation} {s t : State} (hs : s.phase = .idle) (h : issueScale l r s = .next t) :
    (∃ c, argError s.args = some c ∧ t = rejected (commandWord l r) c s) ∨
      (argError s.args = none ∧ dutyBroken l s = none ∧ t = accepted l r s) := by
  simp only [issueScale, hs] at h
  split at h
  · rename_i c hc; cases h; exact .inl ⟨c, hc, rfl⟩
  · rename_i hc
    split at h
    · cases h
    · rename_i hd; cases h; exact .inr ⟨hc, hd, rfl⟩

/-- Everything a write to CMD can do when it answers a next state (R39, R108). -/
theorem writeCmd_next {w : Word} {s t : State} (h : writeCmd w s = .next t) :
    (∃ e, s.phase = .busy e ∧ t = setOverrun s) ∨
    (s.phase = .idle ∧ ((∃ c, t = rejected w c s) ∨
      ∃ l r, w = commandWord l r ∧ rotSupported r = true ∧ argError s.args = none ∧ dutyBroken l s = none ∧
        t = accepted l r s)) := by
  cases hp : s.phase with
  | busy e =>
    refine .inl ⟨e, rfl, ?_⟩
    simp only [writeCmd] at h
    split at h
    · rename_i i hd
      obtain ⟨l, r, rfl, -⟩ := decode_command hd
      rw [exec_command_busy l r hp] at h; cases h; rfl
    · simp only [issueRejected, hp] at h; cases h; rfl
  | idle =>
    refine .inr ⟨rfl, ?_⟩
    simp only [writeCmd] at h
    split at h
    · rename_i i hd
      obtain ⟨l, r, rfl, rfl⟩ := decode_command hd
      cases hr : rotSupported r with
      | true =>
        rw [exec_supported hr] at h
        rcases issueScale_next hp h with ⟨c, -, rfl⟩ | ⟨h1, h2, rfl⟩
        · exact .inl ⟨c, rfl⟩
        · exact .inr ⟨l, r, rfl, hr, h1, h2, rfl⟩
      | false =>
        rw [exec_unsupported hr, issueRejected_idle hp] at h
        cases h; exact .inl ⟨_, rfl⟩
    · rw [issueRejected_idle hp] at h; cases h; exact .inl ⟨_, rfl⟩

theorem alignedWord_iff (off : BitVec 6) (size : Nat) : alignedWord off size = true ↔ size = 4 ∧ off.toNat % 4 = 0 := by
  have : off.extractLsb' 0 2 = 0 ↔ off.toNat % 4 = 0 := by
    rw [← BitVec.toNat_inj]; simp [BitVec.extractLsb'_toNat]
  simp [alignedWord, ← this]

/-- An aligned host write, by register (R39). -/
theorem regWrite_aligned {off : BitVec 6} (h : off.toNat % 4 = 0) (v : Word) (s : State) :
    act (.regWrite off 4 v) s = match regAt off with
      | .status => .next s
      | .reserved => .next s
      | .cmd => writeCmd v s
      | r => .next (writeArg r v s) := by
  show hostRegWrite off 4 v s = _
  unfold hostRegWrite
  exact (if_pos ((alignedWord_iff off 4).2 ⟨rfl, h⟩)).trans rfl

/-- Everything a host register write can do when it answers a next state (R39). -/
theorem hostRegWrite_next {off : BitVec 6} {size : Nat} {v : Word} {s t : State} (h : hostRegWrite off size v s = .next t) :
    t = s ∨ (∃ e, s.phase = .busy e ∧ size = 4 ∧ TakesWrite off ∧ t = setOverrun s) ∨
    (s.phase = .idle ∧ size = 4 ∧ TakesWrite off ∧ regAt off ≠ .cmd ∧ t = { s with args := s.args.set (regAt off) v }) ∨
    (s.phase = .idle ∧ off = 0x00#6 ∧ size = 4 ∧ ((∃ c, t = rejected v c s) ∨
      ∃ l r, v = commandWord l r ∧ rotSupported r = true ∧ argError s.args = none ∧ dutyBroken l s = none ∧
        t = accepted l r s)) := by
  unfold hostRegWrite at h
  split at h
  · rename_i hal
    obtain ⟨hsz, ha⟩ := (alignedWord_iff off size).1 hal
    split at h
    · cases h; exact .inl rfl
    · cases h; exact .inl rfl
    · rename_i hr
      have hoff : off = 0x00#6 := (by decide : ∀ o : BitVec 6, regAt o = .cmd → o = 0x00#6) off hr
      rcases writeCmd_next h with hb | ⟨hi, hc⟩
      · obtain ⟨e, he, ht⟩ := hb
        exact .inr (.inl ⟨e, he, hsz, ⟨ha, by rw [hr]; decide, by rw [hr]; decide⟩, ht⟩)
      · exact .inr (.inr (.inr ⟨hi, hoff, hsz, hc⟩))
    · rename_i h1 h2 h3
      cases h
      have ht : TakesWrite off := ⟨ha, h1, h2⟩
      unfold writeArg
      cases hp : s.phase with
      | idle => exact .inr (.inr (.inl ⟨rfl, hsz, ht, h3, rfl⟩))
      | busy e => exact .inr (.inl ⟨e, rfl, hsz, ht, rfl⟩)
  · cases h

theorem srcW_eq (a : Args) : a.srcW = a.srcSize.toNat % 65536 := by simp [Args.srcW, BitVec.extractLsb'_toNat]
theorem dstW_eq (a : Args) : a.dstW = a.dstSize.toNat % 65536 := by simp [Args.dstW, BitVec.extractLsb'_toNat]
theorem srcH_eq (a : Args) : a.srcH = a.srcSize.toNat / 65536 := by
  simp only [Args.srcH, BitVec.extractLsb'_toNat, Nat.shiftRight_eq_div_pow]; have := a.srcSize.isLt; omega
theorem dstH_eq (a : Args) : a.dstH = a.dstSize.toNat / 65536 := by
  simp only [Args.dstH, BitVec.extractLsb'_toNat, Nat.shiftRight_eq_div_pow]; have := a.dstSize.isLt; omega
theorem low_bits_zero (v : Word) : v.extractLsb' 0 2 = 0 ↔ v.toNat % 4 = 0 := by
  rw [← BitVec.toNat_inj]; simp [BitVec.extractLsb'_toNat]

/-- The checks of R111 to R113 pass exactly when the register bits say so. -/
theorem argError_none_iff (a : Args) : argError a = none ↔ ArgsPass a := by
  unfold argError ArgsPass strideOf
  simp only [ne_eq, low_bits_zero, srcW_eq, srcH_eq, dstW_eq, dstH_eq]
  split_ifs <;> simp <;> omega

/-- A span that meets a region with side effects has a byte with side effects, and the other way round (R52). -/
theorem spanOnSideEffect_iff {rs : List Region} {i : Span} (hs : i.start < 4294967296) (hl : 0 < i.len) :
    spanOnSideEffect rs i = true ↔ ∃ a, a < 4294967296 ∧ i.holds a = true ∧ regionHas rs .sideEffect a = true := by
  simp only [spanOnSideEffect, regionHas, List.any_eq_true, Bool.and_eq_true, decide_eq_true_eq, Region.covers,
    bne_iff_ne, ne_eq]
  have key : ∀ r : Region, r.size ≠ 0 → r.base < 4294967296 →
      (i.meets ⟨r.base, min r.size (4294967296 - r.base)⟩ = true ↔
        ∃ a, a < 4294967296 ∧ i.holds a = true ∧ r.base ≤ a ∧ a < r.base + r.size) := by
    intro r h1 h2
    rw [meets_iff hs h2 hl (by simp only; omega)]
    constructor
    · rintro ⟨a, ha, h3, h4⟩
      rw [holds_iff] at h4; simp only at h4
      exact ⟨a, ha, h3, by omega, by omega⟩
    · rintro ⟨a, ha, h3, h4, h5⟩
      exact ⟨a, ha, h3, by rw [holds_iff]; simp only; omega⟩
  constructor
  · rintro ⟨r, hr, ⟨⟨hk, hz⟩, hb⟩, hm⟩
    obtain ⟨a, ha, h3, h4, h5⟩ := (key r hz hb).1 hm
    exact ⟨a, ha, h3, r, hr, hk, h4, h5⟩
  · rintro ⟨a, ha, h3, r, hr, hk, h4, h5⟩
    exact ⟨r, hr, ⟨⟨hk, by omega⟩, by omega⟩, (key r (by omega) (by omega)).2 ⟨a, ha, h3, h4, h5⟩⟩

/-- The duty check of acceptance finds nothing exactly when the duties are kept (R52, R55, R57). -/
theorem dutyBroken_none_iff {l : Layout} {s : State} (hc : argError s.args = none) :
    dutyBroken l s = none ↔ DutiesKept l s := by
  have hp := dims_pos hc
  have hside : (dstSpans s.args ++ sampleSpans l s.args).any (spanOnSideEffect s.regions) = true ↔
      ∃ a, a < 4294967296 ∧ (spansHold (dstSpans s.args) a || spansHold (sampleSpans l s.args) a) = true ∧
        regionHas s.regions .sideEffect a = true := by
    rw [List.any_eq_true]
    have hst : ∀ i ∈ dstSpans s.args ++ sampleSpans l s.args, i.start < 4294967296 ∧ 0 < i.len := by
      intro i hi
      rcases List.mem_append.1 hi with hi | hi
      · have := planeSpans_start hi; exact ⟨this.1, by omega⟩
      · exact sampleSpans_start hc hi
    simp only [← spansHold_append, spansHold_iff]
    constructor
    · rintro ⟨i, hi, h⟩
      obtain ⟨a, ha, h1, h2⟩ := (spanOnSideEffect_iff (hst i hi).1 (hst i hi).2).1 h
      exact ⟨a, ha, ⟨i, hi, h1⟩, h2⟩
    · rintro ⟨a, ha, ⟨i, hi, h1⟩, h2⟩
      exact ⟨i, hi, (spanOnSideEffect_iff (hst i hi).1 (hst i hi).2).2 ⟨a, ha, h1, h2⟩⟩
  unfold dutyBroken DutiesKept setsApart
  by_cases h1 : spansMeet (dstSpans s.args) (sampleSpans l s.args) = true
  · simp [h1]
  · by_cases h2 : spansSelfMeet (dstSpans s.args) = true
    · rw [if_neg h1, if_pos h2]; simp [h2]
    · rw [if_neg h1, if_neg h2]
      simp only [Bool.not_eq_true] at h1 h2
      by_cases h3 : (dstSpans s.args ++ sampleSpans l s.args).any (spanOnSideEffect s.regions) = true
      · rw [if_pos h3]
        obtain ⟨a, ha, h4, h5⟩ := hside.1 h3
        simp only [reduceCtorEq, false_iff]
        rintro ⟨-, h, -⟩
        rw [h a ha h4] at h5; cases h5
      · rw [if_neg h3]
        have h3' : ∀ a, a < 4294967296 → (spansHold (dstSpans s.args) a || spansHold (sampleSpans l s.args) a) = true →
            regionHas s.regions .sideEffect a = false := by
          intro a ha h4
          cases h5 : regionHas s.regions .sideEffect a with
          | false => rfl
          | true => exact absurd (hside.2 ⟨a, ha, h4, h5⟩) h3
        by_cases h6 : s.posted.any (fun p => spansHold (sampleSpans l s.args) p.1.toNat) = true
        · rw [if_pos h6]
          simp only [reduceCtorEq, false_iff]
          rintro ⟨-, -, h⟩
          obtain ⟨p, hp, h7⟩ := List.any_eq_true.1 h6
          rw [h p hp] at h7; cases h7
        · rw [if_neg h6]
          simp only [true_iff]
          refine ⟨⟨h1, h2⟩, h3', fun p hp => ?_⟩
          cases h7 : spansHold (sampleSpans l s.args) p.1.toNat with
          | false => rfl
          | true => exact absurd (List.any_eq_true.2 ⟨p, hp, h7⟩) h6

/-- A command just accepted meets the invariant, once its checks pass, its sets lie apart and memory is in canonical form. -/
theorem accepted_inv {l : Layout} {r : Rotation} {s : State} (hm : s.mem.wf = true) (hr : rotSupported r = true)
    (hc : argError s.args = none) (hap : setsApart l s.args) : (accepted l r s).Inv :=
  ⟨hm, ⟨rfl, rfl, rfl, rfl, hr, hc, hap, rfl, hm⟩, ⟨List.nodup_range, fun _ hy => List.mem_range.1 hy, fun h => by cases h⟩, fun _ _ => rfl,
    fun _ _ _ _ => rfl, fun _ hy hn => absurd (List.mem_range.2 hy) hn⟩

end Sys2Proof.Machine
end

