-- ==== Sys2Proof/Laws/Engine.lean ====
section
/-! SUPPORT. What the engine's turn can do, and what the row operations of a command in progress read, write and leave. -/

namespace Sys2Proof.Machine

/-- The pixel function of the row operation of a destination row (R102). -/
def rowFn (rs : List Region) (sn : Snapshot) (g : Normalised) (y : Nat) : Memory → Nat → Except Stop Word :=
  if (sn.args.dstW : Int) = g.wN then identPixel rs (lumaView sn g y) (uView sn g y) (vView sn g y)
  else if 2 * (sn.args.dstW : Int) = g.wN then halfPixel rs (lumaView sn g y) (uView sn g y) (vView sn g y)
  else generalPixel rs (lumaView sn g y) (uView sn g y) (vView sn g y) (stepOf g.wN sn.args.dstW)

/-- Executing the row operation of a destination row is running its pixel function over the row. -/
theorem exec_rowInstr (sn : Snapshot) (g : Normalised) (y : Nat) (s : State) :
    exec (rowInstr sn g y) s = runRow (rowFn s.regions sn g y) (dstRow sn.args y) sn.args.dstW s := by
  unfold rowInstr rowFn
  simp only
  split_ifs <;> rfl

/-- The pixel of the row operation of a destination row. -/
theorem rowPixel_rowInstr (rs : List Region) (m : Memory) (x : Nat) (sn : Snapshot) (g : Normalised) (y : Nat) :
    rowPixel rs m x (rowInstr sn g y) = some (rowFn rs sn g y m x) := by
  unfold rowInstr rowFn
  simp only
  split_ifs <;> rfl

theorem newPixel_eq (rs : List Region) (e : Engine) (y x : Nat) (w : Word) :
    newPixel rs e y x = some w ↔
      rowFn rs e.snap e.norm y e.before x = .ok w ∧ accessWord rs (dstPixel e.snap.args y x) = .ok () := by
  unfold newPixel
  rw [rowPixel_rowInstr]
  split
  · rename_i v u h1 h2
    cases u
    simp only [Option.some.injEq] at h1
    rw [h1, h2]; simp
  · rename_i hno
    constructor
    · intro h; cases h
    · rintro ⟨h1, h2⟩; exact absurd h2 (hno w () (by rw [h1]))

theorem rowFn_readsViews {rs : List Region} {sn : Snapshot} {g : Normalised} {y : Nat}
    (hc : argError sn.args = none) :
    ReadsViews (rowFn rs sn g y) (lumaView sn g y) (uView sn g y) (vView sn g y) := by
  unfold rowFn
  split_ifs
  · exact identPixel_readsViews (lumaView_ok g hc) (uView_ok g hc) (vView_ok g hc)
  · exact halfPixel_readsViews (lumaView_ok g hc) (uView_ok g hc) (vView_ok g hc)
  · exact generalPixel_readsViews _ (lumaView_ok g hc) (uView_ok g hc) (vView_ok g hc)

/-- The row operation of a destination row depends on the sample sets only (R53). -/
theorem rowFn_samples {rs : List Region} {sn : Snapshot} {y : Nat} (hc : argError sn.args = none)
    (hy : y < sn.args.dstH) {m m' : Memory}
    (h : ∀ a, spansHold (sampleSpans sn.layout sn.args) a = true → m.read a = m'.read a) (x : Nat) :
    rowFn rs sn (normalise sn) y m x = rowFn rs sn (normalise sn) y m' x :=
  rowFn_readsViews hc _ _ (fun a ha => h a (lumaView_in_samples hc hy ha)) (fun a ha => h a (uView_in_samples hc hy ha))
    (fun a ha => h a (vView_in_samples hc hy ha)) x

/-- The row's own writes do not change what the row reads, once the sets lie apart (R55). -/
theorem rowFn_stable {rs : List Region} {sn : Snapshot} {y : Nat} (hc : argError sn.args = none)
    (hap : setsApart sn.layout sn.args) (hy : y < sn.args.dstH) (m : Memory) :
    StableOff (rowFn rs sn (normalise sn) y) (dstRow sn.args y) sn.args.dstW m := by
  intro m1 hm x
  refine rowFn_samples hc hy (fun a ha => hm a fun k hk he => ?_) x
  have hd : spansHold (dstSpans sn.args) a = true :=
    row_in_dst hy (by rw [he]; exact spanAt_holds_mem hk (row_fits _))
  rw [dst_not_sample hc hap (by rw [he]; exact addrOf_lt _) hd] at ha
  cases ha

/-- A stuck engine makes no further progress (R64, R116). -/
theorem engineTurn_stuck {s : State} {e : Engine} (hp : s.phase = .busy e) (hs : e.stuck = true) (pick : Nat) :
    engineTurn pick s = .next s := by
  simp only [engineTurn, hp, hs, if_true]

/-- Everything a turn of the engine can do when it answers a next state: nothing (IDLE, or stuck), completion, getting
stuck, or one pending row produced. -/
theorem engineTurn_next {pick : Nat} {s t : State} (h : engineTurn pick s = .next t) :
    (t = s ∧ (s.phase = .idle ∨ ∃ e, s.phase = .busy e ∧ e.stuck = true)) ∨
    (∃ e, s.phase = .busy e ∧ e.stuck = false ∧ e.pending = [] ∧ t = complete s) ∨
    (∃ e, s.phase = .busy e ∧ e.stuck = false ∧ e.pending ≠ [] ∧ t = engineStuck e s) ∨
    (∃ e y m, s.phase = .busy e ∧ e.stuck = false ∧ e.pending[pickIndex pick e.pending]? = some y ∧
      rowLoop s.regions (rowFn s.regions e.snap e.norm y) (dstRow e.snap.args y) e.snap.args.dstW 0 s.mem = .ok m ∧
      t = rowDone e (pickIndex pick e.pending) { s with mem := m }) := by
  unfold engineTurn at h
  split at h
  · rename_i hp; cases h; exact .inl ⟨rfl, .inl hp⟩
  · rename_i e hp
    split at h
    · rename_i hs; cases h; exact .inl ⟨rfl, .inr ⟨e, hp, hs⟩⟩
    · rename_i hs
      rw [Bool.not_eq_true] at hs
      split at h
      · rename_i hn
        cases h
        refine .inr (.inl ⟨e, hp, hs, ?_, rfl⟩)
        rw [List.getElem?_eq_none_iff] at hn
        by_contra hne
        have := Nat.mod_lt pick (List.length_pos_of_ne_nil hne)
        unfold pickIndex at hn; omega
      · rename_i y hy
        split at h
        · rename_i s' hx
          cases h
          rw [exec_rowInstr] at hx
          obtain ⟨m, hm, rfl⟩ := runRow_next hx
          exact .inr (.inr (.inr ⟨e, y, m, hp, hs, hy, hm, rfl⟩))
        · cases h
          exact .inr (.inr (.inl ⟨e, hp, hs, List.ne_nil_of_mem (List.mem_of_getElem? hy), rfl⟩))
        · cases h

/-- A list without repeats, less one of its entries. -/
theorem mem_eraseIdx_of_nodup {l : List Nat} (hl : l.Nodup) {j y : Nat} (hy : l[j]? = some y) (z : Nat) :
    z ∈ l.eraseIdx j ↔ z ∈ l ∧ z ≠ y := by
  obtain ⟨hj, rfl⟩ := List.getElem?_eq_some_iff.1 hy
  rw [← hl.erase_getElem j hj, hl.mem_erase_iff, and_comm]

/-- Getting stuck at a pending row keeps the invariant of the command in progress (R64). -/
theorem engineInv_stuck {s : State} {e : Engine} (hi : EngineInv s e) (hp : e.pending ≠ []) :
    EngineInv (engineStuck e s) { e with stuck := true } :=
  ⟨hi.1, ⟨hi.2.1.1, hi.2.1.2.1, fun _ => hp⟩, hi.2.2⟩

/-- One row produced: what the row's bytes and all other bytes hold, and that the invariant of the command in progress
carries over. -/
theorem engineInv_row {s : State} {e : Engine} {j y : Nat} {m : Memory} (hi : EngineInv s e)
    (hs : e.stuck = false) (hy : e.pending[j]? = some y)
    (hm : rowLoop s.regions (rowFn s.regions e.snap e.norm y) (dstRow e.snap.args y) e.snap.args.dstW 0 s.mem = .ok m) :
    EngineInv (rowDone e j { s with mem := m }) { e with pending := e.pending.eraseIdx j } := by
  obtain ⟨⟨h1, h2, h3, h4, h5, h6, h7, h8, h9⟩, ⟨hnd, hlt, -⟩, hsam, hold, hnew⟩ := hi
  have hya : y < s.args.dstH := hlt y (List.mem_of_getElem? hy)
  have hc : argError e.snap.args = none := by rw [h3]; exact h6
  have hap : setsApart e.snap.layout e.snap.args := by rw [h3]; exact h7
  have hye : y < e.snap.args.dstH := by rw [h3]; exact hya
  have hframe := rowLoop_frame _ _ _ _ hm
  have hoff : ∀ a, a < 4294967296 → (rowSpan (dstRow s.args y) s.args.dstW).holds a = false → m.read a = s.mem.read a := by
    intro a _ ha
    refine hframe a fun k _ hk he => ?_
    rw [h3] at he hk
    have : (rowSpan (dstRow s.args y) s.args.dstW).holds (addrOf (dstRow s.args y + (k : Int))) = true :=
      spanAt_holds_mem (by omega) (row_fits _)
    rw [← he, ha] at this; cases this
  have hbig : ∀ a, ¬ a < 4294967296 → m.read a = s.mem.read a := by
    intro a ha
    exact hframe a fun k _ _ he => ha (by rw [he]; exact addrOf_lt _)
  have hsam' : ∀ a, spansHold (sampleSpans e.snap.layout s.args) a = true → m.read a = s.mem.read a := by
    intro a ha
    by_cases hlt : a < 4294967296
    · refine hoff a hlt ?_
      cases hr : (rowSpan (dstRow s.args y) s.args.dstW).holds a with
      | false => rfl
      | true => rw [dst_not_sample h6 h7 hlt (row_in_dst hya hr)] at ha; cases ha
    · exact hbig a hlt
  have hrow : ∀ y', y' < s.args.dstH → y' ≠ y → ∀ a, (rowSpan (dstRow s.args y') s.args.dstW).holds a = true →
      m.read a = s.mem.read a := by
    intro y' hy' hne a ha
    by_cases hlt : a < 4294967296
    · refine hoff a hlt ?_
      exact rows_apart h6 h7 hy' hya hne a hlt ha
    · exact hbig a hlt
  refine ⟨⟨h1, h2, h3, h4, h5, h6, h7, h8, h9⟩, ⟨?_, ?_, fun h => absurd h (by simp [hs])⟩, ?_, ?_, ?_⟩
  · exact hnd.sublist (List.eraseIdx_sublist ..)
  · intro z hz; exact hlt z (List.mem_of_mem_eraseIdx hz)
  · intro a ha
    simp only [rowDone_mem]
    rw [hsam' a ha]; exact hsam a ha
  · intro z hz a ha
    rw [mem_eraseIdx_of_nodup hnd hy] at hz
    simp only [rowDone_mem, rowDone_args] at ha ⊢
    rw [hrow z (hlt z hz.1) hz.2 a ha]; exact hold z hz.1 a ha
  · intro z hz hzp x hx
    simp only [rowDone_mem, rowDone_args, rowDone_regions] at hz hx ⊢
    change newPixel s.regions e z x = _
    by_cases hzy : z = y
    · subst hzy
      rw [newPixel_eq]
      have hst := rowFn_stable (rs := s.regions) hc hap hye s.mem
      rw [← h8] at hst
      have := rowLoop_value (row_fits _) hst _ _ _ _ (by omega) (fun _ _ => rfl) hm x (by omega) (by rw [h3]; omega)
      rw [h8] at this ⊢
      rw [← h3]
      refine ⟨?_, this.2⟩
      exact (rowFn_samples hc hye (fun a ha => (hsam a (by rw [← h3]; exact ha)).symm) x).trans this.1
    · have hzp' : z ∉ e.pending := fun hin => hzp ((mem_eraseIdx_of_nodup hnd hy z).2 ⟨hin, hzy⟩)
      rw [hnew z hz hzp' x hx]
      congr 1
      refine readWord_congr fun k hk => (hrow z hz hzy _ ?_).symm
      rw [show dstPixel s.args z x + (k : Int) = dstRow s.args z + ((4 * x + k : Nat) : Int) by
        unfold dstPixel; push_cast; ring]
      exact spanAt_holds_mem (by omega) (row_fits _)

end Sys2Proof.Machine
end

