-- ==== Sys2Proof/Laws/Reference.lean ====
section
/-! SUPPORT. The row views against absolute coordinates (R105): what a fetch of a command's view reads, and the pixel of a row operation as the reference pixel. -/

namespace Sys2Proof.Machine

/-- A fetch inside a view that begins at `b` reads the sample at column `absCol` (R82, R105). -/
theorem fetch_absCol (vw : RowView) (k : Int) (hn : 1 ≤ vw.n) :
    vw.o + fetchIndex vw k = viewStart vw + absCol vw.rtl vw.n k := by
  unfold fetchIndex viewStart absCol clamp
  cases vw.rtl <;> simp only [Bool.false_eq_true, if_false, if_true] <;> split_ifs <;> omega

theorem luma_sample (sn : Snapshot) (m : Memory) (y : Nat) (k : Int) (hc : argError sn.args = none) :
    sampleAt m (lumaView sn (normalise sn) y) (fetchIndex (lumaView sn (normalise sn) y) k) = refLuma sn m y k := by
  unfold sampleAt refLuma planeSample
  rw [fetch_absCol _ _ (lumaView_ok (normalise sn) hc).1, lumaView_start]; rfl

theorem u_sample (sn : Snapshot) (m : Memory) (y : Nat) (k : Int) (hc : argError sn.args = none) :
    sampleAt m (uView sn (normalise sn) y) (fetchIndex (uView sn (normalise sn) y) k) =
      refChroma sn m sn.args.uBase sn.args.uStride y k := by
  unfold sampleAt refChroma planeSample
  rw [fetch_absCol _ _ (uView_ok (normalise sn) hc).1, uView_start]; rfl

theorem v_sample (sn : Snapshot) (m : Memory) (y : Nat) (k : Int) (hc : argError sn.args = none) :
    sampleAt m (vView sn (normalise sn) y) (fetchIndex (vView sn (normalise sn) y) k) =
      refChroma sn m sn.args.vBase sn.args.vStride y k := by
  unfold sampleAt refChroma planeSample
  rw [fetch_absCol _ _ (vView_ok (normalise sn) hc).1, vView_start]; rfl

/-- A fetch that answers at all answers the byte it addresses (R64: no value is guessed). -/
theorem fetch_inv {rs : List Region} {m : Memory} {vw : RowView} {k : Int} {b : Byte} (h : fetch rs m vw k = .ok b) :
    b = sampleAt m vw (fetchIndex vw k) := by
  unfold fetch memRead at h
  split at h
  · cases h; rfl
  · cases h

/-- The step of a right-to-left row is the negated step of the left-to-right one (R103). -/
theorem stepOf_neg (w : Nat) (dw : Nat) : stepOf (-(w : Int)) dw = -tdiv (16 * w) dw := by
  unfold stepOf tdiv
  rw [show (16 : Int) * -(w : Int) = -(16 * (w : Int)) by ring, Int.neg_tdiv]

theorem bind_ok {α β : Type} {x : Except Stop α} {f : α → Except Stop β} {r : β} (h : (x >>= f) = .ok r) :
    ∃ a, x = .ok a ∧ f a = .ok r := by
  cases x with
  | error e => cases h
  | ok a => exact ⟨a, rfl, h⟩

/-- Whatever pixel the row operation of a destination row answers is the reference pixel (R105). -/
theorem rowFn_ref {rs : List Region} {sn : Snapshot} {y x : Nat} {m : Memory} {w : Word}
    (hc : argError sn.args = none) (h : rowFn rs sn (normalise sn) y m x = .ok w) : w = refPixel sn m y x := by
  have hw : (normalise sn).wN = if rotRtl sn.rotation then -(sn.args.srcW : Int) else sn.args.srcW := rfl
  have hp := dims_pos hc
  unfold rowFn at h
  unfold refPixel
  rw [hw] at h
  cases hr : rotRtl sn.rotation with
  | false =>
    rw [hr] at h
    simp only [Bool.false_eq_true, if_false, true_and] at h ⊢
    by_cases h1 : sn.args.dstW = sn.args.srcW
    · rw [if_pos (by omega)] at h
      rw [if_pos h1]
      obtain ⟨yb, hy, h⟩ := bind_ok h
      obtain ⟨ub, hu, h⟩ := bind_ok h
      obtain ⟨vb, hv, h⟩ := bind_ok h
      rw [fetch_inv hy, fetch_inv hu, fetch_inv hv, luma_sample _ _ _ _ hc, u_sample _ _ _ _ hc, v_sample _ _ _ _ hc] at h
      cases h; rfl
    · rw [if_neg (by omega)] at h
      rw [if_neg h1]
      by_cases h2 : 2 * sn.args.dstW = sn.args.srcW
      · rw [if_pos (by omega)] at h
        rw [if_pos h2]
        obtain ⟨y0, hy0, h⟩ := bind_ok h
        obtain ⟨y1, hy1, h⟩ := bind_ok h
        obtain ⟨ub, hu, h⟩ := bind_ok h
        obtain ⟨vb, hv, h⟩ := bind_ok h
        rw [fetch_inv hy0, fetch_inv hy1, fetch_inv hu, fetch_inv hv, luma_sample _ _ _ _ hc, luma_sample _ _ _ _ hc,
          u_sample _ _ _ _ hc, v_sample _ _ _ _ hc] at h
        cases h; rfl
      · rw [if_neg (by omega)] at h
        rw [if_neg h2]
        obtain ⟨y0, hy0, h⟩ := bind_ok h
        obtain ⟨y1, hy1, h⟩ := bind_ok h
        obtain ⟨ub, hu, h⟩ := bind_ok h
        obtain ⟨vb, hv, h⟩ := bind_ok h
        rw [fetch_inv hy0, fetch_inv hy1, fetch_inv hu, fetch_inv hv, luma_sample _ _ _ _ hc, luma_sample _ _ _ _ hc,
          u_sample _ _ _ _ hc, v_sample _ _ _ _ hc] at h
        cases h; rfl
  | true =>
    rw [hr] at h
    simp only [if_true, Bool.true_eq_false, false_and, if_false] at h ⊢
    rw [if_neg (by omega), if_neg (by omega), stepOf_neg] at h
    obtain ⟨y0, hy0, h⟩ := bind_ok h
    obtain ⟨y1, hy1, h⟩ := bind_ok h
    obtain ⟨ub, hu, h⟩ := bind_ok h
    obtain ⟨vb, hv, h⟩ := bind_ok h
    rw [fetch_inv hy0, fetch_inv hy1, fetch_inv hu, fetch_inv hv, luma_sample _ _ _ _ hc, luma_sample _ _ _ _ hc,
      u_sample _ _ _ _ hc, v_sample _ _ _ _ hc] at h
    cases h; rfl

/-- Every pixel of a row operation of a command can be computed from ordinary memory. -/
theorem rowFn_ok {rs : List Region} {sn : Snapshot} {y : Nat} (hc : argError sn.args = none) (hy : y < sn.args.dstH)
    (ho : ∀ a, a < 4294967296 → spansHold (sampleSpans sn.layout sn.args) a = true → kindAt rs a = none) (m : Memory) (x : Nat) :
    ∃ w, rowFn rs sn (normalise sn) y m x = .ok w := by
  have ol : Ordinary rs (viewSpan (lumaView sn (normalise sn) y)) := fun a hlt ha => ho a hlt (lumaView_in_samples hc hy ha)
  have ou : Ordinary rs (viewSpan (uView sn (normalise sn) y)) := fun a hlt ha => ho a hlt (uView_in_samples hc hy ha)
  have ov : Ordinary rs (viewSpan (vView sn (normalise sn) y)) := fun a hlt ha => ho a hlt (vView_in_samples hc hy ha)
  unfold rowFn
  split_ifs
  · exact ⟨_, identPixel_ok (lumaView_ok _ hc) (uView_ok _ hc) (vView_ok _ hc) ol ou ov m x⟩
  · exact ⟨_, halfPixel_ok (lumaView_ok _ hc) (uView_ok _ hc) (vView_ok _ hc) ol ou ov m x⟩
  · exact ⟨_, generalPixel_ok (lumaView_ok _ hc) (uView_ok _ hc) (vView_ok _ hc) ol ou ov _ m x⟩

/-- The row operation of a destination row answers when every byte of the command's sets is ordinary memory. -/
theorem rowLoop_command_ok {rs : List Region} {sn : Snapshot} {y : Nat} (hc : argError sn.args = none)
    (hap : setsApart sn.layout sn.args) (hy : y < sn.args.dstH)
    (ho : ∀ a, a < 4294967296 → spansHold (sampleSpans sn.layout sn.args) a = true → kindAt rs a = none)
    (hd : ∀ a, a < 4294967296 → spansHold (dstSpans sn.args) a = true → kindAt rs a = none) (m : Memory) :
    ∃ m', rowLoop rs (rowFn rs sn (normalise sn) y) (dstRow sn.args y) sn.args.dstW 0 m = .ok m' :=
  rowLoop_ok (rowFn_stable hc hap hy m) (fun x _ => rowFn_ok hc hy ho m x)
    (fun _ hx => accessWord_of_ordinary (row_fits _) (fun a hlt ha => hd a hlt (row_in_dst hy ha)) hx) _ _ _ (by omega)
    (fun _ _ => rfl)

end Sys2Proof.Machine
end

