-- ==== Sys2Proof/Laws/Host.lean ====
section
/-! SUPPORT. What each event of the host and the platform can do, said once; what a read while BUSY and a reset during a command give (R38, R39, R57 to R59, R127, R132). -/

namespace Sys2Proof.Machine

/-- A bus address in the window is REG_BASE plus its offset (R16). -/
theorem windowOffset_add (off : BitVec 6) : windowOffset (Config.regBase + off.toNat) = some off := by
  have := off.isLt
  unfold windowOffset; rw [if_pos ⟨by omega, by omega⟩]; simp

theorem windowOffset_some {addr : Nat} {off : BitVec 6} (h : windowOffset addr = some off) :
    addr = Config.regBase + off.toNat := by
  unfold windowOffset at h
  split at h
  · rename_i hb
    cases h
    rw [BitVec.toNat_ofNat]; omega
  · cases h

/-- A bus address outside the window has no offset in it (R16). -/
theorem windowOffset_none {addr : Nat} (h : addr < Config.regBase ∨ Config.regBase + 64 ≤ addr) :
    windowOffset addr = none := if_neg (by omega)

theorem runsIntoWindow_iff (addr size : Nat) :
    runsIntoWindow addr size = true ↔ addr < Config.regBase ∧ Config.regBase < addr + size := by
  simp [runsIntoWindow]

/-- A bus access that does not begin in the window changes nothing when it answers a next state. -/
theorem hostBusElsewhere_next {addr size : Nat} {s t : State} (h : hostBusElsewhere addr size s = .next t) : t = s := by
  unfold hostBusElsewhere at h
  split at h <;> cases h
  rfl

/-- Everything a bus write can do when it answers a next state: nothing, or the register write at its offset. -/
theorem hostBusWrite_next {addr size : Nat} {v : Word} {s t : State} (h : hostBusWrite addr size v s = .next t) :
    t = s ∨ ∃ off, addr = Config.regBase + off.toNat ∧ hostRegWrite off size v s = .next t := by
  unfold hostBusWrite at h
  split at h
  · rename_i off ho; exact .inr ⟨off, windowOffset_some ho, h⟩
  · exact .inl (hostBusElsewhere_next h)

/-- A register read gives an answer and changes nothing else (R38). -/
theorem hostRegRead_next {off : BitVec 6} {size : Nat} {s t : State} (h : hostRegRead off size s = .next t) :
    t = { s with busData := t.busData } := by
  unfold hostRegRead at h
  split at h <;> cases h
  rfl

theorem hostBusRead_next {addr size : Nat} {s t : State} (h : hostBusRead addr size s = .next t) :
    t = { s with busData := t.busData } := by
  unfold hostBusRead at h
  split at h
  · exact hostRegRead_next h
  · rw [hostBusElsewhere_next h]

/-- A memory read gives an answer, counts one free choice, and changes nothing else (R58, R59). -/
theorem hostMemRead_next {a : BitVec 32} {count : Nat} {s t : State} (h : hostMemRead a count s = .next t) :
    t = { s with busData := t.busData, nonce := s.nonce + 1 } := by
  unfold hostMemRead at h
  split at h <;> cases h
  rfl

/-- Everything the performing of a posted write can do when it answers a next state (R57, R130 (2)). -/
theorem hostDrain_next {s t : State} (h : hostDrain s = .next t) :
    t = s ∨ ∃ a v rest, s.posted = (a, v) :: rest ∧ kindAt s.regions a.toNat = none ∧
      (s.phase = .idle ∨ ∃ e, s.phase = .busy e ∧ commandHolds e a.toNat = false) ∧
      t = { s with mem := s.mem.write a.toNat v, posted := rest } := by
  unfold hostDrain at h
  split at h
  · cases h; exact .inl rfl
  · rename_i a v rest hp
    refine .inr ⟨a, v, rest, hp, ?_⟩
    unfold performWrite at h
    split at h
    · cases h
    · rename_i hk
      split at h
      · rename_i hs; cases h; exact ⟨hk, .inl hs, rfl⟩
      · rename_i e hs
        split at h
        · cases h
        · rename_i hc; cases h; exact ⟨hk, .inr ⟨e, hs, by simpa using hc⟩, rfl⟩

/-- The word a reset during a command leaves in a destination pixel (R127). -/
def resetWord (s : State) (e : Engine) (y x : Nat) : Word :=
  match newPixel s.regions e y x with
  | none => e.before.readWord (dstPixel e.snap.args y x)
  | some v =>
    if Config.resetLeavesNew s.nonce (addrOf (dstPixel e.snap.args y x)) then v
    else e.before.readWord (dstPixel e.snap.args y x)

theorem resetPixel_eq (s : State) (e : Engine) (y x : Nat) (m : Memory) :
    resetPixel s e y x m = m.writeWord (dstPixel e.snap.args y x) (resetWord s e y x) := by
  unfold resetPixel resetWord
  cases newPixel s.regions e y x with
  | none => rfl
  | some v => simp only; split_ifs <;> rfl

/-- That word is the pixel's old word or the word the command would write (R127). -/
theorem resetWord_old_or_new (s : State) (e : Engine) (y x : Nat) :
    resetWord s e y x = e.before.readWord (dstPixel e.snap.args y x) ∨ newPixel s.regions e y x = some (resetWord s e y x) := by
  unfold resetWord
  split
  · exact .inl rfl
  · rename_i v hv
    split
    · exact .inr hv
    · exact .inl rfl

theorem dstPixel_add (a : Args) (y x k : Nat) : dstPixel a y x + (k : Int) = dstRow a y + ((4 * x + k : Nat) : Int) := by
  unfold dstPixel; push_cast; ring

/-- The bytes of a pixel are bytes of its row. -/
theorem pixel_in_row (a : Args) {y x k : Nat} (hx : x < a.dstW) (hk : k < 4) :
    (rowSpan (dstRow a y) a.dstW).holds (addrOf (dstPixel a y x + (k : Int))) = true := by
  rw [dstPixel_add]; exact spanAt_holds_mem (by omega) (row_fits _)

theorem resetRow_off (s : State) (e : Engine) (y : Nat) (m : Memory) {a : Nat}
    (ha : (rowSpan (dstRow e.snap.args y) e.snap.args.dstW).holds a = false) (n : Nat) (hn : n ≤ e.snap.args.dstW) :
    (resetRow s e y n m).read a = m.read a := by
  induction n with
  | zero => rfl
  | succ n ih =>
    simp only [resetRow, resetPixel_eq]
    rw [read_writeWord_off, ih (by omega)]
    intro k hk he
    rw [he, pixel_in_row _ (by omega) hk] at ha; cases ha

theorem resetRow_value (s : State) (e : Engine) (y : Nat) (m : Memory) (n : Nat) (hn : n ≤ e.snap.args.dstW) :
    ∀ x, x < n → (resetRow s e y n m).readWord (dstPixel e.snap.args y x) = resetWord s e y x := by
  induction n with
  | zero => intro x hx; omega
  | succ n ih =>
    intro x hx
    simp only [resetRow, resetPixel_eq]
    rcases Nat.eq_or_lt_of_le (Nat.le_of_lt_succ hx) with rfl | hlt
    · exact readWord_writeWord _ _ _
    · rw [← ih (by omega) x hlt]
      refine readWord_congr fun k hk => read_writeWord_off _ _ _ _ fun k' hk' => ?_
      have := row_fits e.snap.args
      rw [dstPixel_add, dstPixel_add]
      exact addrOf_add_ne _ (by omega) (by omega) (by omega) (by omega) (by omega)

theorem resetRows_off (s : State) (e : Engine) (m : Memory) {a : Nat} (ha : spansHold (dstSpans e.snap.args) a = false)
    (n : Nat) (hn : n ≤ e.snap.args.dstH) : (resetRows s e n m).read a = m.read a := by
  induction n with
  | zero => rfl
  | succ n ih =>
    simp only [resetRows]
    rw [resetRow_off _ _ _ _ ?_ _ (le_refl _), ih (by omega)]
    cases h : (rowSpan (dstRow e.snap.args n) e.snap.args.dstW).holds a with
    | false => rfl
    | true => rw [row_in_dst (by omega) h] at ha; cases ha

theorem resetRows_value (s : State) (e : Engine) (m : Memory) {l : Layout} (hc : argError e.snap.args = none)
    (hap : setsApart l e.snap.args) (n : Nat) (hn : n ≤ e.snap.args.dstH) :
    ∀ y x, y < n → x < e.snap.args.dstW →
      (resetRows s e n m).readWord (dstPixel e.snap.args y x) = resetWord s e y x := by
  induction n with
  | zero => intro y x hy; omega
  | succ n ih =>
    intro y x hy hx
    simp only [resetRows]
    rcases Nat.eq_or_lt_of_le (Nat.le_of_lt_succ hy) with rfl | hlt
    · exact resetRow_value _ _ _ _ _ (le_refl _) x hx
    · rw [← ih (by omega) y x hlt hx]
      refine readWord_congr fun k hk => resetRow_off _ _ _ _ ?_ _ (le_refl _)
      exact rows_apart hc hap (by omega) (by omega) (by omega) _ (addrOf_lt _) (pixel_in_row _ hx hk)

theorem resetRow_wf (s : State) (e : Engine) (y : Nat) {m : Memory} (hm : m.wf = true) (n : Nat) :
    (resetRow s e y n m).wf = true := by
  induction n with
  | zero => exact hm
  | succ n ih => simp only [resetRow, resetPixel_eq]; exact wf_writeWord _ _ ih

theorem resetRows_wf (s : State) (e : Engine) {m : Memory} (hm : m.wf = true) (n : Nat) :
    (resetRows s e n m).wf = true := by
  induction n with
  | zero => exact hm
  | succ n ih => exact resetRow_wf _ _ _ ih _

/-- The reset input keeps the canonical form of memory. -/
theorem resetMem_wf {s : State} (hm : s.mem.wf = true) : (resetMem s).wf = true := by
  unfold resetMem
  split
  · exact hm
  · exact resetRows_wf _ _ hm _

/-- The row and byte offset that a destination byte's address is found at (R46). -/
theorem dstByteAt_pixel {a : Args} {l : Layout} {y x k : Nat} (hc : argError a = none) (hap : setsApart l a)
    (hy : y < a.dstH) (hx : x < a.dstW) (hk : k < 4) :
    dstByteAt a (addrOf (dstPixel a y x + (k : Int))) = some (y, 4 * x + k) := by
  have hin := pixel_in_row a (y := y) hx hk
  have hd : distUp (addrOf (dstRow a y)) (addrOf (dstPixel a y x + (k : Int))) = 4 * x + k := by
    have := row_fits a
    rw [dstPixel_add]; unfold distUp addrOf; omega
  unfold dstByteAt
  split
  · rename_i y' hf
    have h1 := List.find?_some hf
    have h2 := List.mem_range.1 (List.mem_of_find?_eq_some hf)
    have : y' = y := by
      by_contra hne
      have := rows_apart hc hap h2 hy hne _ (addrOf_lt _) h1
      rw [this] at hin; cases hin
    subst this
    rw [hd]
  · rename_i hf
    have := List.find?_eq_none.1 hf y (List.mem_range.2 hy)
    exact absurd hin this

/-- The word a host read of a destination pixel gives while BUSY (R132). -/
def busyWord (s : State) (e : Engine) (y x : Nat) : Word :=
  match newPixel s.regions e y x with
  | none => e.before.readWord (dstPixel e.snap.args y x)
  | some v =>
    if Config.seesNew s.nonce (addrOf (dstPixel e.snap.args y x)) then v
    else e.before.readWord (dstPixel e.snap.args y x)

theorem busyWord_old_or_new (s : State) (e : Engine) (y x : Nat) :
    busyWord s e y x = e.before.readWord (dstPixel e.snap.args y x) ∨ newPixel s.regions e y x = some (busyWord s e y x) := by
  unfold busyWord
  split
  · exact .inl rfl
  · rename_i v hv
    split
    · exact .inr hv
    · exact .inl rfl

/-- A byte of a word in memory is the byte at its offset (R49). -/
theorem read_eq_byteAt (m : Memory) (d : Int) {k : Nat} (hk : k < 4) : m.read (addrOf (d + (k : Int))) = byteAt (m.readWord d) k := by
  have h := byteAt_wordOf (m.read (addrOf d)) (m.read (addrOf (d + 1))) (m.read (addrOf (d + 2))) (m.read (addrOf (d + 3)))
  have : k = 0 ∨ k = 1 ∨ k = 2 ∨ k = 3 := by omega
  rcases this with rfl | rfl | rfl | rfl
  · rw [Nat.cast_zero, Int.add_zero]; exact h.1.symm
  · exact h.2.1.symm
  · exact h.2.2.1.symm
  · exact h.2.2.2.symm

/-- Every byte of a destination pixel read while BUSY is that byte of one word, old or new (R51, R132). -/
theorem hostByte_pixel {s : State} {e : Engine} {l : Layout} {y x k : Nat} (hb : s.phase = .busy e)
    (hc : argError e.snap.args = none) (hap : setsApart l e.snap.args) (hy : y < e.snap.args.dstH)
    (hx : x < e.snap.args.dstW) (hk : k < 4) :
    hostByte s (addrOf (dstPixel e.snap.args y x + (k : Int))) = byteAt (busyWord s e y x) k := by
  unfold hostByte busyWord
  rw [hb]
  simp only [dstByteAt_pixel hc hap hy hx hk, show (4 * x + k) / 4 = x by omega, show (4 * x + k) % 4 = k by omega]
  cases newPixel s.regions e y x with
  | none => exact read_eq_byteAt _ _ hk
  | some v =>
    simp only
    split_ifs
    · rfl
    · exact read_eq_byteAt _ _ hk

/-- An address counted on from a reduced address is reduced the same (R43). -/
theorem addrOf_addrOf_add (d k : Int) : addrOf ((addrOf d : Int) + k) = addrOf (d + k) := by unfold addrOf; omega

/-- The addresses of a four-byte read that begins at an integer address. -/
theorem readAddrs_four {a : BitVec 32} {d : Int} (h : a.toNat = addrOf d) :
    readAddrs a 4 = [addrOf (d + (0 : Nat)), addrOf (d + (1 : Nat)), addrOf (d + (2 : Nat)), addrOf (d + (3 : Nat))] := by
  show [addrOf ((a.toNat : Int) + (0 : Nat)), addrOf ((a.toNat : Int) + (1 : Nat)), addrOf ((a.toNat : Int) + (2 : Nat)),
    addrOf ((a.toNat : Int) + (3 : Nat))] = _
  rw [h]
  simp only [addrOf_addrOf_add]

/-- A run of one step more, when the first step answers a next state. -/
theorem run_succ {s s' : State} (h : step s = .next s') (k : Nat) : core.run (k + 1) s = core.run k s' := by
  have h' : core.step s = .next s' := h
  simp only [Host.Core.run, h']

/-- A step whose next event is listed is that event on the state without it (R120). -/
theorem step_cons {s : State} {ev : Input} {rest : List Input} (h : s.inputs = ev :: rest) :
    step s = act ev { s with inputs := rest } := by unfold step nextEvent; rw [h]

/-- A step with no event listed is a turn of the engine (log 7). -/
theorem step_nil {s : State} (h : s.inputs = []) : step s = engineTurn 0 s := by unfold step nextEvent; rw [h]; rfl

end Sys2Proof.Machine
end

