-- ==== Sys2Proof/Laws/Step.lean ====
section
/-! SUPPORT. Everything one step of the machine can do, by event and by what it leaves of the block's own state. -/

namespace Sys2Proof.Machine

/-- A step is a turn of the engine or the oldest listed event. -/
theorem step_act {s t : State} (h : step s = .next t) : (s.inputs = [] ∧ engineTurn 0 s = .next t) ∨
    ∃ ev rest, s.inputs = ev :: rest ∧ act ev { s with inputs := rest } = .next t := by
  unfold step nextEvent at h
  split at h
  · exact .inl ⟨‹_›, h⟩
  · exact .inr ⟨_, _, ‹_›, h⟩

/-- Everything one step can do to what the block holds. -/
theorem step_block {s t : State} (h : step s = .next t) :
    (t.args = s.args ∧ t.cmd = s.cmd ∧ t.phase = s.phase ∧ t.done = s.done ∧ t.overrun = s.overrun ∧ t.err = s.err ∧
      (t.mem = s.mem ∨ ∃ rest, s.inputs = .memDrain :: rest)) ∨
    (∃ rest, s.inputs = .reset :: rest) ∨
    (∃ off size v rest, (s.inputs = .regWrite off size v :: rest ∨
        s.inputs = .busWrite (Config.regBase + off.toNat) size v :: rest) ∧
      hostRegWrite off size v { s with inputs := rest } = .next t) ∨
    (∃ e, s.phase = .busy e ∧ e.stuck = false ∧ e.pending = [] ∧ t = complete { s with inputs := t.inputs }) ∨
    (∃ e, s.phase = .busy e ∧ e.stuck = false ∧ e.pending ≠ [] ∧ t = engineStuck e { s with inputs := t.inputs }) ∨
    (∃ e j m, s.phase = .busy e ∧ e.stuck = false ∧ t = rowDone e j { s with mem := m, inputs := t.inputs }) := by
  have eng : ∀ p s', s' = { s with inputs := s'.inputs } → engineTurn p s' = .next t →
      (t.args = s.args ∧ t.cmd = s.cmd ∧ t.phase = s.phase ∧ t.done = s.done ∧ t.overrun = s.overrun ∧ t.err = s.err ∧
        (t.mem = s.mem ∨ ∃ rest, s.inputs = .memDrain :: rest)) ∨
      (∃ e, s.phase = .busy e ∧ e.stuck = false ∧ e.pending = [] ∧ t = complete { s with inputs := t.inputs }) ∨
      (∃ e, s.phase = .busy e ∧ e.stuck = false ∧ e.pending ≠ [] ∧ t = engineStuck e { s with inputs := t.inputs }) ∨
      (∃ e j m, s.phase = .busy e ∧ e.stuck = false ∧ t = rowDone e j { s with mem := m, inputs := t.inputs }) := by
    intro p s' hs h
    have hp : s'.phase = s.phase := by rw [hs]
    rcases engineTurn_next h with ⟨rfl, -⟩ | ⟨e, he, hst, hpe, rfl⟩ | ⟨e, he, hst, hpe, rfl⟩ | ⟨e, y, m, he, hst, hy, hm, rfl⟩
    · rw [hs]; exact .inl ⟨rfl, rfl, rfl, rfl, rfl, rfl, .inl rfl⟩
    · exact .inr (.inl ⟨e, hp ▸ he, hst, hpe, by rw [hs]; rfl⟩)
    · exact .inr (.inr (.inl ⟨e, hp ▸ he, hst, hpe, by rw [hs]; rfl⟩))
    · exact .inr (.inr (.inr ⟨e, _, m, hp ▸ he, hst, by rw [hs]; rfl⟩))
  rcases step_act h with ⟨-, h⟩ | ⟨ev, rest, hin, h⟩
  · rcases eng 0 s rfl h with h | h
    exacts [.inl h, .inr (.inr (.inr h))]
  · cases ev with
    | regWrite off size v => exact .inr (.inr (.inl ⟨off, size, v, rest, .inl hin, h⟩))
    | regRead off size => rw [hostRegRead_next h]; exact .inl ⟨rfl, rfl, rfl, rfl, rfl, rfl, .inl rfl⟩
    | busWrite addr size v =>
      rcases hostBusWrite_next h with h | ⟨off, ha, h⟩
      · rw [h]; exact .inl ⟨rfl, rfl, rfl, rfl, rfl, rfl, .inl rfl⟩
      · rw [ha] at hin
        exact .inr (.inr (.inl ⟨off, size, v, rest, .inr hin, h⟩))
    | busRead addr size => rw [hostBusRead_next h]; exact .inl ⟨rfl, rfl, rfl, rfl, rfl, rfl, .inl rfl⟩
    | memWrite a v => cases h; exact .inl ⟨rfl, rfl, rfl, rfl, rfl, rfl, .inl rfl⟩
    | memDrain =>
      rcases hostDrain_next h with h | ⟨a, v, rest', hp, hk, hph, h⟩ <;> rw [h] <;>
        exact .inl ⟨rfl, rfl, rfl, rfl, rfl, rfl, .inr ⟨_, hin⟩⟩
    | memRead a n => rw [hostMemRead_next h]; exact .inl ⟨rfl, rfl, rfl, rfl, rfl, rfl, .inl rfl⟩
    | engine p =>
      rcases eng p _ rfl h with h | h
      exacts [.inl h, .inr (.inr (.inr h))]
    | reset => exact .inr (.inl ⟨rest, hin⟩)

end Sys2Proof.Machine
end

