-- ==== Sys2Proof/Tests/Slice0.lean ====
section
/-! SUPPORT. The model's own tests, with expected values from spec/30 (encodings), spec/95 (vectors and programs) and the rules, and one witness for each statement that has hypotheses. -/

open Sys2Proof Sys2Proof.Machine

namespace Sys2Proof.Tests

/-- What a test looks at: the next state of an outcome, mapped. -/
def after (o : Host.Outcome State Fault Refusal) {α : Type} (f : State → α) : Option α :=
  match o with
  | .next s => some (f s)
  | .fault _ => none
  | .refused _ => none

/-- A memory with bytes put at consecutive addresses. -/
def bytesAt (a : Nat) (bs : List Byte) (m : Memory) : Memory :=
  match bs with
  | [] => m
  | b :: bs => bytesAt (a + 1) bs (m.write a b)

/-- The rows of spec/95 section 2.6: luma at 0x100, U at 0x200, V at 0x300. -/
def rowState (luma u v : List Byte) : State :=
  { State.reset with mem := bytesAt 0x300 v (bytesAt 0x200 u (bytesAt 0x100 luma [])) }

/-- The destination pixels of a row at 0x1000 (spec/95 section 2.6). -/
def rowPixels (n : Nat) (o : Host.Outcome State Fault Refusal) : Option (List Word) :=
  after o fun s => (List.range n).map fun x => s.mem.readWord (0x1000 + 4 * (x : Int))

/-! The decoder, on words written from the fields of R66 to R68. -/

theorem test_decode_scale420 :
    decode (0b0000000000000000000000000#25 ++ 0b000#3 ++ 0b0001#4) = .ok .scale420Rot0 ∧
    decode (0b0000000000000000000000000#25 ++ 0b001#3 ++ 0b0001#4) = .ok .scale420Rot90 ∧
    decode (0b0000000000000000000000000#25 ++ 0b010#3 ++ 0b0001#4) = .ok .scale420Rot180 ∧
    decode (0b0000000000000000000000000#25 ++ 0b011#3 ++ 0b0001#4) = .ok .scale420Rot270 ∧
    decode (0b0000000000000000000000000#25 ++ 0b100#3 ++ 0b0001#4) = .ok .scale420Mir0 ∧
    decode (0b0000000000000000000000000#25 ++ 0b101#3 ++ 0b0001#4) = .ok .scale420Mir90 ∧
    decode (0b0000000000000000000000000#25 ++ 0b110#3 ++ 0b0001#4) = .ok .scale420Mir180 ∧
    decode (0b0000000000000000000000000#25 ++ 0b111#3 ++ 0b0001#4) = .ok .scale420Mir270 := by
  refine ⟨rfl, rfl, rfl, rfl, rfl, rfl, rfl, rfl⟩

theorem test_decode_scale422 :
    decode (0b0000000000000000000000000#25 ++ 0b000#3 ++ 0b0010#4) = .ok .scale422Rot0 ∧
    decode (0b0000000000000000000000000#25 ++ 0b001#3 ++ 0b0010#4) = .ok .scale422Rot90 ∧
    decode (0b0000000000000000000000000#25 ++ 0b010#3 ++ 0b0010#4) = .ok .scale422Rot180 ∧
    decode (0b0000000000000000000000000#25 ++ 0b011#3 ++ 0b0010#4) = .ok .scale422Rot270 ∧
    decode (0b0000000000000000000000000#25 ++ 0b100#3 ++ 0b0010#4) = .ok .scale422Mir0 ∧
    decode (0b0000000000000000000000000#25 ++ 0b101#3 ++ 0b0010#4) = .ok .scale422Mir90 ∧
    decode (0b0000000000000000000000000#25 ++ 0b110#3 ++ 0b0010#4) = .ok .scale422Mir180 ∧
    decode (0b0000000000000000000000000#25 ++ 0b111#3 ++ 0b0010#4) = .ok .scale422Mir270 := by
  refine ⟨rfl, rfl, rfl, rfl, rfl, rfl, rfl, rfl⟩

/-- R109, spec/95 section 2.9: illegal words, by cause. -/
theorem test_decode_illegal :
    decode 0x00000000#32 = .error .reservedOpc ∧ decode 0x00000003#32 = .error .reservedOpc ∧
      decode 0x0000000F#32 = .error .reservedOpc ∧ decode 0x00000013#32 = .error .reservedOpc ∧
      decode 0x00000081#32 = .error .reservedBits ∧ decode 0x00000091#32 = .error .reservedBits ∧
      decode 0x80000001#32 = .error .reservedBits := by
  refine ⟨rfl, rfl, rfl, rfl, rfl, rfl, rfl⟩

/-- R49, R65: bytes, lowest address first; the bytes after the word are left. -/
theorem test_decode_bytes :
    decodeBytes [0x61#8, 0#8, 0#8, 0#8, 0x99#8] = .ok (.scale420Mir180, [0x99#8]) ∧
      decodeBytes [0x61#8, 0#8, 0#8] = .error .truncated ∧ decodeBytes [0#8, 0#8, 0#8, 0x61#8] = .error .reservedBits := by
  refine ⟨rfl, rfl, rfl⟩

theorem test_decodeTableWord :
    decodeTableWord 32 0x22 = some .scale422Rot180 ∧ decodeTableWord 32 0x80 = none ∧
      decodeTableWord 7 0x42 = some .scale422Mir0 := by decide

/-! WellFormed: a well-formed term of each shape, and an ill-formed one for each check. -/

theorem test_wf_good :
    (Instr.rowIdent ⟨0x100, 3, false⟩ ⟨0x200, 2, false⟩ ⟨0x300, 2, false⟩ 0x1000 3).wf = true ∧
      (Instr.rowGeneral ⟨0x102, 3, true⟩ ⟨0x201, 2, true⟩ ⟨0x301, 2, true⟩ 0x1000 5 (-9)).wf = true ∧
      (Instr.rowHalf ⟨0x100, 4, false⟩ ⟨0x200, 2, false⟩ ⟨0x300, 2, false⟩ 0x1000 2).wf = true := by decide

theorem test_wf_views :
    (Instr.rowIdent ⟨0x100, 0, false⟩ ⟨0x200, 0, false⟩ ⟨0x300, 0, false⟩ 0x1000 0).wf = false ∧
      (Instr.rowIdent ⟨0, 65536, false⟩ ⟨0, 32768, false⟩ ⟨0, 32768, false⟩ 0 65536).wf = false ∧
      (Instr.rowIdent ⟨0x100, 3, false⟩ ⟨0x200, 1, false⟩ ⟨0x300, 2, false⟩ 0x1000 3).wf = false ∧
      (Instr.rowIdent ⟨0x100, 3, false⟩ ⟨0x200, 2, false⟩ ⟨0x300, 3, false⟩ 0x1000 3).wf = false ∧
      (Instr.rowIdent ⟨0x102, 3, true⟩ ⟨0x201, 2, true⟩ ⟨0x301, 2, true⟩ 0x1000 3).wf = false ∧
      (Instr.rowGeneral ⟨0x102, 3, true⟩ ⟨0x201, 2, false⟩ ⟨0x301, 2, true⟩ 0x1000 5 (-9)).wf = false ∧
      (Instr.rowGeneral ⟨0x102, 3, true⟩ ⟨0x201, 2, true⟩ ⟨0x301, 2, false⟩ 0x1000 5 (-9)).wf = false := by decide

theorem test_wf_widths :
    (Instr.rowIdent ⟨0x100, 3, false⟩ ⟨0x200, 2, false⟩ ⟨0x300, 2, false⟩ 0x1000 2).wf = false ∧
      (Instr.rowHalf ⟨0x100, 5, false⟩ ⟨0x200, 3, false⟩ ⟨0x300, 3, false⟩ 0x1000 2).wf = false ∧
      (Instr.rowGeneral ⟨0x100, 3, false⟩ ⟨0x200, 2, false⟩ ⟨0x300, 2, false⟩ 0x1000 0 0).wf = false ∧
      (Instr.rowGeneral ⟨0x100, 3, false⟩ ⟨0x200, 2, false⟩ ⟨0x300, 2, false⟩ 0x1000 65536 0).wf = false ∧
      (Instr.rowGeneral ⟨0x100, 3, false⟩ ⟨0x200, 2, false⟩ ⟨0x300, 2, false⟩ 0x1000 5 (-9)).wf = false := by decide

/-! SAT and YUVPIXEL (spec/95 sections 2.1 and 2.2). -/

theorem test_sat_low : after (exec (.sat (-276)) State.reset) (·.satOut) = some 0#8 := by decide
theorem test_sat_high :
    after (exec (.sat 535) State.reset) (·.satOut) = some 255#8 ∧ after (exec (.sat 200) State.reset) (·.satOut) = some 200#8 := by
  decide

theorem test_yuvpixel_red :
    after (exec (.yuvpixel 81 90 240) State.reset) (fun s => pack s.pixelOut) = some 0xFFFF0000#32 := by decide
theorem test_yuvpixel_black :
    after (exec (.yuvpixel 16 128 128) State.reset) (fun s => pack s.pixelOut) = some 0xFF010101#32 ∧
      after (exec (.yuvpixel 128 0 255) State.reset) (fun s => pack s.pixelOut) = some 0xFFFF4E00#32 := by decide

/-! The row operations (spec/95 section 2.6). -/

theorem test_rowIdent :
    rowPixels 4 (exec (.rowIdent ⟨0x100, 4, false⟩ ⟨0x200, 2, false⟩ ⟨0x300, 2, false⟩ 0x1000 4)
      (rowState [0, 100, 200, 40] [128, 128] [128, 128])) =
      some [0xFF000000#32, 0xFF626262#32, 0xFFD7D7D7#32, 0xFF1C1C1C#32] := by decide +kernel
theorem test_rowGeneral_V_GEN_1 :
    rowPixels 3 (exec (.rowGeneral ⟨0x100, 4, false⟩ ⟨0x200, 2, false⟩ ⟨0x300, 2, false⟩ 0x1000 3 21)
      (rowState [0, 100, 200, 40] [128, 128] [128, 128])) = some [0xFF000000#32, 0xFF7F7F7F#32, 0xFF7A7A7A#32] := by decide +kernel
theorem test_rowGeneral_V_GEN_8 :
    rowPixels 4 (exec (.rowGeneral ⟨0x103, 4, true⟩ ⟨0x201, 2, true⟩ ⟨0x301, 2, true⟩ 0x1000 4 (-16))
      (rowState [128, 128, 128, 128] [0, 255] [128, 128])) =
      some [0xFF8351FF#32, 0xFF83B500#32, 0xFF83B500#32, 0xFF83B500#32] := by decide +kernel
theorem test_rowHalf :
    rowPixels 2 (exec (.rowHalf ⟨0x100, 4, false⟩ ⟨0x200, 2, false⟩ ⟨0x300, 2, false⟩ 0x1000 2)
      (rowState [0, 100, 200, 40] [128, 128] [128, 128])) = some [0xFF282828#32, 0xFF7A7A7A#32] := by decide +kernel

/-! The commands (spec/95 sections 2.9 and 3). -/

/-- The arguments of program P2: a 4×2 frame at identity scale. -/
def argsP2 : Args where
  yBase := 0x1000
  uBase := 0x1100
  vBase := 0x1200
  yStride := 4
  uStride := 2
  vStride := 2
  srcSize := 0x00020004
  dstBase := 0x3000
  dstStride := 0x10
  dstSize := 0x00020004

/-- The state before program P2's command. -/
def stateP2 : State :=
  { State.reset with
    args := argsP2
    mem := bytesAt 0x1200 [240, 110] (bytesAt 0x1100 [90, 240] (bytesAt 0x1000 [16, 81, 145, 235, 41, 125, 120, 0] [])) }

/-- P2 with 4:2:2 chroma planes of two rows. -/
def stateP2Wide : State := { stateP2 with args := { argsP2 with vBase := 0x1300 } }

/-- The eight supported commands are accepted: STATUS is BUSY and CMD holds the word of R71. -/
theorem test_accept :
    ([Instr.scale420Rot0, .scale420Rot180, .scale420Mir0, .scale420Mir180, .scale422Rot0, .scale422Rot180, .scale422Mir0,
      .scale422Mir180].map fun i => after (exec i stateP2Wide) fun s => (statusWord s, s.cmd)) =
      [0x01#32, 0x21, 0x41, 0x61, 0x02, 0x22, 0x42, 0x62].map fun w => some (1#32, w) := by decide

/-- The eight unsupported rotations are rejected with code 2. -/
theorem test_unsupported :
    ([Instr.scale420Rot90, .scale420Rot270, .scale420Mir90, .scale420Mir270, .scale422Rot90, .scale422Rot270,
      .scale422Mir90, .scale422Mir270].map fun i => after (exec i stateP2) fun s => (statusWord s, s.cmd)) =
      [0x11#32, 0x31, 0x51, 0x71, 0x12, 0x32, 0x52, 0x72].map fun w => some (0x20#32, w) := by decide

/-- P5: the first steps after reset, by the host's window. -/
theorem test_window_from_reset :
    after (step (State.reset.withFetchWord 32 0x11)) statusWord = some 0x20#32 ∧
      after (step (State.reset.withFetchWord 32 0x01)) statusWord = some 0x30#32 ∧
      after (step (State.reset.withFetchWord 32 0x81)) (fun s => (statusWord s, s.cmd)) = some (0x10#32, 0x81#32) := by
  decide

/-- The checks of spec/95 section 2.9: W = H = DW = DH = 2, DST_BASE = 0x2000, DST_STRIDE = 8 unless changed. -/
def argsChecks : Args where
  yBase := 0x1000
  uBase := 0x1100
  vBase := 0x1200
  yStride := 2
  uStride := 1
  vStride := 1
  srcSize := 0x00020002
  dstBase := 0x2000
  dstStride := 8
  dstSize := 0x00020002

/-- STATUS after a command is issued with some arguments. -/
def statusFor (i : Instr) (a : Args) : Option Word := after (exec i { State.reset with args := a }) statusWord

theorem test_checks :
    statusFor .scale420Rot180 { argsChecks with dstSize := 0x00020000 } = some 0x30 ∧
      statusFor .scale420Rot0 { argsChecks with dstBase := 0x2002 } = some 0x40 ∧
      statusFor .scale420Rot0 { argsChecks with dstStride := 6 } = some 0x40 ∧
      statusFor .scale420Rot0 { argsChecks with dstStride := 4 } = some 0x50 ∧
      statusFor .scale420Rot0 { argsChecks with dstStride := 0xFFFFFFFC } = some 0x50 ∧
      statusFor .scale420Rot0 { argsChecks with dstStride := 0xFFFFFFF8 } = some 0x01 ∧
      statusFor .scale420Rot0 { argsChecks with dstStride := 0, dstSize := 0x00010002 } = some 0x01 ∧
      statusFor .scale422Rot0 { argsChecks with dstStride := 0x80000000 } = some 0x01 := by decide

theorem test_checks_order :
    statusFor .scale420Rot90 Args.reset = some 0x20 ∧
      statusFor .scale420Rot0 { Args.reset with dstBase := 0x2001, dstStride := 1 } = some 0x30 := by decide

/-- P2 after ROT0: one turn of the engine produces row 1 of the destination. -/
theorem test_row_of_command :
    after (engineTurn 1 (accepted .l420 .rot0 stateP2)) (fun s => (List.range 4).map fun x => s.mem.readWord (dstPixel argsP2 1 x)) =
      some [0xFFD10000#32, 0xFFFF3333#32, 0xFF5D5CFF#32, 0xFF0000D0#32] := by decide +kernel

/-- P2 after ROT180: one turn of the engine produces row 0 of the destination. -/
theorem test_row_of_command_rot180 :
    after (engineTurn 0 (accepted .l420 .rot180 stateP2)) (fun s => (List.range 4).map fun x => s.mem.readWord (dstPixel argsP2 0 x)) =
      some [0xFF0000D0#32, 0xFFFF2D2D#32, 0xFFFF3333#32, 0xFFD10000#32] := by decide +kernel

/-- R64, R116: with nothing at destination row 0 a turn at row 1 produces it, one at row 0 is stuck, and after that one at
row 1 produces nothing. -/
theorem test_stuck :
    let s := { accepted .l420 .rot0 stateP2 with regions := [⟨0x3000, 16, .absent⟩] }
    after (engineTurn 1 s) (fun t => (t.phase == s.phase, t.mem == s.mem)) = some (false, false) ∧
      after (engineTurn 0 s) (fun t => (statusWord t, t.mem == s.mem, (after (engineTurn 1 t) fun u => decide (u = t)))) =
        some (1#32, true, some true) := by decide +kernel

/-! Registers (spec/95 section 2.10). -/

theorem test_registers_idle :
    after (act (.regWrite 0x08 4 0x4000) { State.reset with done := true }) (fun s => (s.args.yBase, statusWord s)) =
        some (0x4000#32, 2#32) ∧
      after (act (.regWrite 0x34 4 0x12345678) State.reset) (fun s => s) = some State.reset ∧
      after (act (.regRead 0x24 4) stateP2) (·.busData) = some [0x00#8, 0x30#8, 0x00#8, 0x00#8] := by decide

/-- R40, 92 D19: of accesses around CMD, only the aligned 32-bit one is defined. -/
theorem test_bus_window (s : State) (h : 0 < Config.regBase) :
    act (.busRead (Config.regBase - 2) 4) s = .refused .registerAccessNotAlignedWord ∧
      act (.busWrite (Config.regBase - 4) 8 1) s = .refused .registerAccessNotAlignedWord := by
  have h1 : 64 ≤ Config.regBase := by unfold Config.regBase at *; omega
  constructor
  · simp [act, hostBusRead, windowOffset_none (addr := Config.regBase - 2) (by omega), hostBusElsewhere,
      (runsIntoWindow_iff (Config.regBase - 2) 4).2 (by omega)]
  · simp [act, hostBusWrite, windowOffset_none (addr := Config.regBase - 4) (by omega), hostBusElsewhere,
      (runsIntoWindow_iff (Config.regBase - 4) 8).2 (by omega)]

theorem test_registers_busy :
    after (act (.regWrite 0x08 4 0x5000) (accepted .l420 .rot0 stateP2)) (fun s => (s.args.yBase, statusWord s)) =
        some (0x1000#32, 5#32) ∧
      after (act (.regWrite 0x00 4 2) (accepted .l420 .rot0 stateP2)) (fun s => (s.cmd, statusWord s)) = some (1#32, 5#32) ∧
      after (act (.regWrite 0x04 4 2) (accepted .l420 .rot0 stateP2)) statusWord = some 1#32 := by decide

/-! Witnesses: for each statement with hypotheses, a concrete state and operands that meet them all. -/

/-- The state of a command in progress: P2's SCALE420.ROT0 just accepted. -/
def busyP2 : State := accepted .l420 .rot0 stateP2

/-- The engine of that command. -/
def engineP2 : Engine := startEngine ⟨.l420, .rot0, argsP2⟩ stateP2.mem

theorem stateP2_wf : stateP2.mem.wf = true := by decide
theorem stateP2_checks : argError stateP2.args = none := by decide
theorem stateP2_apart : setsApart .l420 stateP2.args := by unfold setsApart; decide
theorem stateP2_passes : ArgsPass stateP2.args := (argError_none_iff _).1 stateP2_checks
theorem stateP2_duties : DutiesKept .l420 stateP2 := (dutyBroken_none_iff stateP2_checks).1 (by decide)
theorem busyP2_inv : busyP2.Inv := accepted_inv stateP2_wf rfl stateP2_checks stateP2_apart
theorem stateP2_inv : stateP2.Inv := ⟨stateP2_wf, fun h => by cases h⟩

/-- A 1×1 frame at 1×1: luma at 0x1000, chroma at 0x1100 and 0x1200, the pixel at 0x2000. -/
def argsOne : Args :=
  { argsChecks with srcSize := 0x00010001, dstSize := 0x00010001 }

/-- The state before a command on that frame. -/
def stateOne : State := { State.reset with args := argsOne, mem := bytesAt 0x1000 [235] [] }

/-- The engine of that command with its one row produced. -/
def engineOne : Engine := { startEngine ⟨.l420, .rot0, argsOne⟩ stateOne.mem with pending := [] }

/-- The state of that command before its completion: every row is produced. -/
def lastOne : State :=
  rowDone (startEngine ⟨.l420, .rot0, argsOne⟩ stateOne.mem) 0
    { accepted .l420 .rot0 stateOne with mem := stateOne.mem.writeWord 0x2000 0xFF33FF00 }

theorem lastOne_inv : lastOne.Inv := by
  have hc : argError stateOne.args = none := by decide
  have hi := accepted_inv (l := .l420) (r := .rot0) (s := stateOne) (by decide) rfl hc (by unfold setsApart; decide)
  exact ⟨by decide, engineInv_row hi.2 (j := 0) (y := 0) rfl (by decide) (by decide +kernel)⟩

/-- P2 with its destination over its luma plane, and a destination that wraps onto itself (R54's example). -/
def argsOverlap : Args := { argsP2 with dstBase := 0x1004 }
def argsWrap : Args :=
  { argsOne with dstBase := 0x40000000, dstStride := 0x7FFFFFFC, dstSize := 0x00030003 }

theorem witness_ResetInputAbandonsCommand : stateP2.Inv ∧ stateP2.phase = .idle ∧ busyP2.Inv ∧ busyP2.phase = .busy engineP2 ∧
    1 < engineP2.snap.args.dstH ∧ 3 < engineP2.snap.args.dstW ∧
    spansHold (dstSpans engineP2.snap.args) 0x3020 = false :=
  ⟨stateP2_inv, rfl, busyP2_inv, rfl, by decide, by decide, by decide⟩

theorem witness_RegisterReads :
    (0x2C#6, stateP2.args.dstSize) ∈ [(0x00#6, stateP2.cmd), (0x04#6, statusWord stateP2), (0x08#6, stateP2.args.yBase),
      (0x0C#6, stateP2.args.uBase), (0x10#6, stateP2.args.vBase), (0x14#6, stateP2.args.yStride),
      (0x18#6, stateP2.args.uStride), (0x1C#6, stateP2.args.vStride), (0x20#6, stateP2.args.srcSize),
      (0x24#6, stateP2.args.dstBase), (0x28#6, stateP2.args.dstStride), (0x2C#6, stateP2.args.dstSize), (0x30#6, 0#32),
      (0x34#6, 0#32), (0x38#6, 0#32), (0x3C#6, 0#32)] := by decide

theorem witness_RegisterWrites :
    (0x00#6).toNat % 4 = 0 ∧ (0x04#6).toNat % 4 = 0 ∧ (0x08#6).toNat % 4 = 0 ∧ (0x2C#6).toNat % 4 = 0 ∧ (0x30#6).toNat % 4 = 0 ∧
      regAt 0x04#6 = .status ∧ regAt 0x30#6 = .reserved ∧ regAt 0x3C#6 = .reserved ∧
      (regAt 0x00#6 = .cmd ∧ stateP2.phase = .idle ∧ decode 1#32 = .ok .scale420Rot0 ∧ decode 0#32 = .error .reservedOpc) ∧
      (regAt 0x08#6 = .yBase ∧ regAt 0x2C#6 = .dstSize) ∧ busyP2.phase = .busy engineP2 := by
  refine ⟨rfl, rfl, rfl, rfl, rfl, rfl, rfl, rfl, ⟨rfl, rfl, rfl, rfl⟩, ⟨rfl, rfl⟩, rfl⟩

theorem witness_UnalignedRegisterAccessRefused :
    ((2 : Nat) ≠ 4 ∨ (0x00#6).toNat % 4 ≠ 0) ∧ ((4 : Nat) ≠ 4 ∨ (0x3F#6).toNat % 4 ≠ 0) := by decide

/-- Accesses around the window: just past its end, ending where it begins, and (where REG_BASE, which is open, leaves an
address below the window) reaching into it by 4 bytes at REG_BASE - 2 and by 8 bytes at REG_BASE - 4, over CMD. -/
theorem witness_RegisterWindow :
    ((Config.regBase + 64 < Config.regBase ∧ Config.regBase + 64 + 4 ≤ Config.regBase) ∨
      Config.regBase + 64 ≤ Config.regBase + 64) ∧
    (0 < Config.regBase → (Config.regBase - 4 < Config.regBase ∧ Config.regBase - 4 + 4 ≤ Config.regBase) ∧
      (Config.regBase - 2 < Config.regBase ∧ Config.regBase < Config.regBase - 2 + 4) ∧
      (Config.regBase - 4 < Config.regBase ∧ Config.regBase < Config.regBase - 4 + 8)) := by
  unfold Config.regBase; omega

theorem witness_StepRunsTheCommandWritten :
    { stateP2 with inputs := [.regWrite 0x00#6 4 1] }.inputs = .regWrite 0x00#6 4 1#32 :: [] ∧
      decode 1#32 = .ok .scale420Rot0 := ⟨rfl, rfl⟩

theorem witness_PlacedCommandRuns : decode 0x00000011#32 = .ok .scale420Rot90 := rfl

/-- A turn that is listed (it picks row 1) and one that is not (it takes row 0). -/
theorem witness_StepRunsTheRowOperation :
    ({ busyP2 with inputs := [.engine 3] }.inputs = .engine 3 :: busyP2.inputs ∧
      busyP2 = { { busyP2 with inputs := [.engine 3] } with inputs := busyP2.inputs } ∧
      engineP2.pending[3 % engineP2.pending.length]? = some 1 ∧ engineP2.stuck = false) ∧
    (busyP2.inputs = [] ∧ busyP2.phase = .busy engineP2 ∧ engineP2.pending[0 % engineP2.pending.length]? = some 0) :=
  ⟨⟨rfl, rfl, by decide, rfl⟩, rfl, rfl, by decide⟩

/-- Its three outcomes: a next state, a fault where nothing is at the row, a refusal where the row has side effects. -/
theorem witness_StepRunsTheRowOperation_outcomes :
    (after (exec (rowInstr engineP2.snap engineP2.norm 0) busyP2) fun _ => ()) = some () ∧
    (∃ f, exec (rowInstr engineP2.snap engineP2.norm 0) { busyP2 with regions := [⟨0x3000, 16, .absent⟩] } = .fault f) ∧
    exec (rowInstr engineP2.snap engineP2.norm 0) { busyP2 with regions := [⟨0x3000, 16, .sideEffect⟩] } =
      .refused .sideEffectMemory := by
  refine ⟨by decide +kernel, ⟨_, rfl⟩, rfl⟩

theorem witness_IllegalWordRejected : State.reset.phase = .idle ∧
    ((0x81#32).toNat / 128 ≠ 0 ∨ ((0x81#32).toNat % 16 ≠ 1 ∧ (0x81#32).toNat % 16 ≠ 2)) ∧
    ((0x13#32).toNat / 128 ≠ 0 ∨ ((0x13#32).toNat % 16 ≠ 1 ∧ (0x13#32).toNat % 16 ≠ 2)) := ⟨rfl, by decide, by decide⟩

theorem witness_UnsupportedRotationRejected : State.reset.phase = .idle ∧
    Instr.scale422Mir270 ∈ [Instr.scale420Rot90, .scale420Rot270, .scale420Mir90, .scale420Mir270, .scale422Rot90,
      .scale422Rot270, .scale422Mir90, .scale422Mir270] ∧ encode .scale422Mir270 = some 0x72#32 :=
  ⟨rfl, by decide, rfl⟩

/-- Each clause of the argument checks, at the value where the next one begins. -/
theorem witness_ArgumentChecksInOrder :
    rotSupported .mir180 = true ∧ State.reset.phase = .idle ∧
    (0x00010000#32).toNat % 65536 = 0 ∧
    ((0x00010001#32).toNat % 65536 ≠ 0 ∧ (0x00010001#32).toNat / 65536 ≠ 0 ∧ (0x2001#32).toNat % 4 ≠ 0) ∧
    (1 < (0x00020002#32).toNat / 65536 ∧ (0xFFFFFFFC#32).toInt.natAbs < 4 * ((0x00020002#32).toNat % 65536)) ∧
    (4 * ((0x00020002#32).toNat % 65536) ≤ (0x00000008#32).toInt.natAbs ∧
      4 * ((0x0002FFFF#32).toNat % 65536) ≤ (0x80000000#32).toInt.natAbs) := by decide

theorem witness_SupportedCommandAccepted :
    stateP2.phase = .idle ∧ rotSupported .rot0 = true ∧ ArgsPass stateP2.args ∧ DutiesKept .l420 stateP2 :=
  ⟨rfl, rfl, stateP2_passes, stateP2_duties⟩

theorem witness_OverlappingCommandRefused_samples : ArgsPass argsOverlap ∧ 0x1004 < 4294967296 ∧
    spansHold (dstSpans argsOverlap) 0x1004 = true ∧ spansHold (sampleSpans .l420 argsOverlap) 0x1004 = true :=
  ⟨(argError_none_iff _).1 (by decide), by decide, by decide, by decide⟩

theorem witness_OverlappingCommandRefused_itself : ArgsPass argsWrap ∧
    (∀ a, a < 4294967296 → spansHold (dstSpans argsWrap) a = true → spansHold (sampleSpans .l420 argsWrap) a = false) ∧
    2 < argsWrap.dstH ∧ (rowSpan (dstRow argsWrap 0) argsWrap.dstW).holds 0x40000000 = true ∧
    (rowSpan (dstRow argsWrap 2) argsWrap.dstW).holds 0x40000000 = true := by
  have hc : argError argsWrap = none := by decide
  refine ⟨(argError_none_iff _).1 hc, fun a ha hd => ?_, by decide, by decide, by decide⟩
  cases hs : spansHold (sampleSpans .l420 argsWrap) a with
  | false => rfl
  | true =>
    have := (overlap_iff (l := .l420) hc).2 ⟨a, ha, hd, hs⟩
    rw [show spansMeet (dstSpans argsWrap) (sampleSpans .l420 argsWrap) = false by decide] at this
    cases this

theorem witness_OtherBrokenDutiesRefused : setsApart .l420 stateP2.args ∧
    ((spansHold (dstSpans stateP2.args) 0x3000 || spansHold (sampleSpans .l420 stateP2.args) 0x3000) = true ∧
      regionHas [⟨0x3000, 1, .sideEffect⟩] .sideEffect 0x3000 = true) ∧
    (∀ a, regionHas stateP2.regions .sideEffect a = false) ∧
    (∃ p ∈ { stateP2 with posted := [(0x1000#32, 1#8)] }.posted, spansHold (sampleSpans .l420 stateP2.args) p.1.toNat = true) :=
  ⟨stateP2_apart, by decide, fun _ => rfl, ⟨_, List.mem_singleton.2 rfl, by decide⟩⟩

theorem witness_RomContents : (128 ≤ 128 ∧ 255 ≤ 255) ∧ 383 ≤ 383 ∧ 511 ≤ 511 := by decide

theorem witness_SaturationMonotone : (0 : Int) ≤ 0 ∧ (255 : Int) ≤ 255 := by decide

theorem witness_CommandWhileBusyDropped : busyP2.phase = .busy engineP2 := rfl

theorem witness_PixelStoredLittleEndian : (0x104 : Nat) ≠ addrOf 0x100 ∧ (0x104 : Nat) ≠ addrOf (0x100 + 1) ∧
    (0x104 : Nat) ≠ addrOf (0x100 + 2) ∧ (0x104 : Nat) ≠ addrOf (0x100 + 3) := by decide

theorem witness_BlendIsWeightedFloor : (3 : Nat) < 4 := by decide

theorem apart_decide {i j : Span} (hi : i.start < 4294967296) (hj : j.start < 4294967296) (hi0 : 0 < i.len)
    (hj0 : 0 < j.len) (h : i.meets j = false) : Apart i j := apart_of_not_meets hi hj hi0 hj0 h

theorem witness_RowIdentWritesPixels :
    (Instr.rowIdent ⟨0x100, 3, false⟩ ⟨0x200, 2, false⟩ ⟨0x300, 2, false⟩ 0x1000 3).wf = true ∧
      RowReady [] ⟨0x100, 3, false⟩ ⟨0x200, 2, false⟩ ⟨0x300, 2, false⟩ 0x1000 3 :=
  ⟨by decide, ⟨fun _ _ _ => rfl, fun _ _ _ => rfl, fun _ _ _ => rfl, fun _ _ _ => rfl⟩,
    apart_decide (by decide) (by decide) (by decide) (by decide) (by decide),
    apart_decide (by decide) (by decide) (by decide) (by decide) (by decide),
    apart_decide (by decide) (by decide) (by decide) (by decide) (by decide)⟩

theorem witness_RowHalfWritesPixels :
    (Instr.rowHalf ⟨0xFFFFFFFE, 4, false⟩ ⟨0x200, 2, false⟩ ⟨0x300, 2, false⟩ 0x1000 2).wf = true ∧
      RowReady [] ⟨0xFFFFFFFE, 4, false⟩ ⟨0x200, 2, false⟩ ⟨0x300, 2, false⟩ 0x1000 2 :=
  ⟨by decide, ⟨fun _ _ _ => rfl, fun _ _ _ => rfl, fun _ _ _ => rfl, fun _ _ _ => rfl⟩,
    apart_decide (by decide) (by decide) (by decide) (by decide) (by decide),
    apart_decide (by decide) (by decide) (by decide) (by decide) (by decide),
    apart_decide (by decide) (by decide) (by decide) (by decide) (by decide)⟩

theorem witness_RowGeneralWritesPixels :
    (Instr.rowGeneral ⟨0x102, 3, true⟩ ⟨0x201, 2, true⟩ ⟨0x301, 2, true⟩ 0x1000 5 (-9)).wf = true ∧
      RowReady [] ⟨0x102, 3, true⟩ ⟨0x201, 2, true⟩ ⟨0x301, 2, true⟩ 0x1000 5 :=
  ⟨by decide, ⟨fun _ _ _ => rfl, fun _ _ _ => rfl, fun _ _ _ => rfl, fun _ _ _ => rfl⟩,
    apart_decide (by decide) (by decide) (by decide) (by decide) (by decide),
    apart_decide (by decide) (by decide) (by decide) (by decide) (by decide),
    apart_decide (by decide) (by decide) (by decide) (by decide) (by decide)⟩

theorem witness_RowOperationFrame :
    (∃ t, exec (.rowIdent ⟨0x100, 3, false⟩ ⟨0x200, 2, false⟩ ⟨0x300, 2, false⟩ 0x1000 3) State.reset = .next t) ∧
      (∃ t, exec (.rowHalf ⟨0x100, 4, false⟩ ⟨0x200, 2, false⟩ ⟨0x300, 2, false⟩ 0x1000 2) State.reset = .next t) ∧
      (∃ t, exec (.rowGeneral ⟨0x102, 3, true⟩ ⟨0x201, 2, true⟩ ⟨0x301, 2, true⟩ 0x1000 5 (-9)) State.reset = .next t) ∧
      ∀ k : Nat, k < 4 * 3 → (0x100C : Nat) ≠ addrOf (0x1000 + (k : Int)) :=
  ⟨⟨_, rfl⟩, ⟨_, rfl⟩, ⟨_, rfl⟩, by decide⟩

theorem absent_no_sideEffect (b n : Nat) (a : Nat) : kindAt [⟨b, n, .absent⟩] a ≠ some .sideEffect := by
  unfold kindAt
  rw [if_neg (by simp [regionHas])]
  split <;> simp

/-- The last byte of a row is absent. -/
theorem witness_RowOperationStops_write :
    (Instr.rowIdent ⟨0x100, 3, false⟩ ⟨0x200, 2, false⟩ ⟨0x300, 2, false⟩ 0x1000 3).wf = true ∧
      (∀ a, kindAt [⟨0x100B, 1, .absent⟩] a ≠ some .sideEffect) ∧
      (11 < 4 * 3 ∧ kindAt [⟨0x100B, 1, .absent⟩] (addrOf (0x1000 + ((11 : Nat) : Int))) = some .absent) :=
  ⟨by decide, absent_no_sideEffect _ _, by decide⟩

/-- A sample is absent that the last column reads: luma for ROW.IDENT, U for ROW.HALF, V read right to left for
ROW.GENERAL. -/
theorem witness_RowOperationStops_read :
    ((0x102 : Int) ∈ sampleReads (.rowIdent ⟨0x100, 3, false⟩ ⟨0x200, 2, false⟩ ⟨0x300, 2, false⟩ 0x1000 3) 2 ∧
      kindAt [⟨0x102, 1, .absent⟩] (addrOf 0x102) = some .absent) ∧
    ((0x201 : Int) ∈ sampleReads (.rowHalf ⟨0x100, 4, false⟩ ⟨0x200, 2, false⟩ ⟨0x300, 2, false⟩ 0x1000 2) 1 ∧
      kindAt [⟨0x201, 1, .absent⟩] (addrOf 0x201) = some .absent) ∧
    ((0x300 : Int) ∈ sampleReads (.rowGeneral ⟨0x102, 3, true⟩ ⟨0x201, 2, true⟩ ⟨0x301, 2, true⟩ 0x1000 5 (-9)) 4 ∧
      kindAt [⟨0x300, 1, .absent⟩] (addrOf 0x300) = some .absent) := by decide

/-- Its two samples differ by 1. -/
theorem witness_HalfIsGeneralFromEight :
    fetch [] (bytesAt 0x100 [7, 8] []) ⟨0x100, 2, false⟩ (2 * ((0 : Nat) : Int)) = .ok 7#8 ∧
      fetch [] (bytesAt 0x100 [7, 8] []) ⟨0x100, 2, false⟩ (2 * ((0 : Nat) : Int) + 1) = .ok 8#8 ∧
      (8#8).toNat = (7#8).toNat + 1 := ⟨rfl, rfl, rfl⟩

theorem witness_IdentIsGeneralAtSixteen : ViewOk ⟨0x100, 1, false⟩ ∧ ViewOk ⟨0x1000, 4294967296, false⟩ ∧
    Ordinary [] (viewSpan ⟨0x100, 1, false⟩) ∧ Ordinary [] (viewSpan ⟨0x1000, 4294967296, false⟩) :=
  ⟨⟨by decide, by decide⟩, ⟨by decide, by decide⟩, fun _ _ _ => rfl, fun _ _ _ => rfl⟩

theorem witness_SourceRowsExist : 1 ≤ 65535 ∧ 65534 < 65535 ∧ 1 ≤ 1 ∧ 0 < 1 := by decide

theorem witness_StepAndPositionRange : (1 ≤ 65535 ∧ 65535 ≤ 65535 ∧ 1 ≤ 1 ∧ 0 < 1) ∧
    (1 ≤ 1 ∧ 1 ≤ 65535 ∧ 1 ≤ 17 ∧ 16 < 17) := by decide

/-- The four clauses of the dispatch: W = 4 with DW = 4, 2 and 3, and right to left. -/
theorem witness_RowDispatch :
    (1 ≤ argsP2.dstW ∧ rotRtl .rot0 = false ∧ argsP2.dstW = argsP2.srcW) ∧
      2 * { argsP2 with dstSize := 0x00020002 }.dstW = argsP2.srcW ∧
      ({ argsP2 with dstSize := 0x00020003 }.dstW ≠ argsP2.srcW ∧ 2 * { argsP2 with dstSize := 0x00020003 }.dstW ≠ argsP2.srcW) ∧
      rotRtl .rot180 = true := by decide

theorem witness_RowOperationsWellFormed : argError argsP2 = none ∧ 1 < argsP2.dstH := by decide
theorem witness_ViewsInAbsoluteCoordinates : argError argsP2 = none ∧ 1 < argsP2.dstH ∧
    (viewSpan (lumaView ⟨.l420, .rot180, argsP2⟩ (normalise ⟨.l420, .rot180, argsP2⟩) 1)).holds 0x1003 = true ∧
    (rowSpan (dstRow argsP2 1) argsP2.dstW).holds 0x301F = true := by decide

theorem witness_RowDependsOnSamplesOnly : argError argsP2 = none ∧ setsApart .l420 argsP2 ∧ 1 < argsP2.dstH ∧
    (∀ a, spansHold (sampleSpans .l420 argsP2) a = true → stateP2.mem.read a = (stateP2.mem.write 0x5000 7).read a) ∧
    (∃ t t', exec (rowInstr ⟨.l420, .rot0, argsP2⟩ (normalise ⟨.l420, .rot0, argsP2⟩) 1) stateP2 = .next t ∧
      exec (rowInstr ⟨.l420, .rot0, argsP2⟩ (normalise ⟨.l420, .rot0, argsP2⟩) 1)
        { stateP2 with mem := stateP2.mem.write 0x5000 7 } = .next t') ∧
    (rowSpan (dstRow argsP2 1) argsP2.dstW).holds 0x3010 = true := by
  refine ⟨by decide, stateP2_apart, by decide, fun a ha => ?_, ⟨_, _, rfl, rfl⟩, by decide⟩
  rw [read_write, if_neg]
  rintro rfl
  rw [show spansHold (sampleSpans .l420 argsP2) 0x5000 = false by decide] at ha
  cases ha

theorem witness_EngineTurnFrame : (∃ t, act (.engine 1) busyP2 = .next t ∧ t.phase ≠ .idle) ∧ busyP2.Inv ∧
    busyP2.phase = .busy engineP2 ∧ spansHold (dstSpans engineP2.snap.args) 0x3020 = false ∧
    (act (.engine 1) stateP2 = .next stateP2 ∧ stateP2.Inv ∧ stateP2.phase = .idle) :=
  ⟨⟨_, rfl, by simp⟩, busyP2_inv, rfl, by decide, rfl, stateP2_inv, rfl⟩

theorem witness_CompletionStep : lastOne.phase = .busy engineOne ∧ engineOne.pending = [] ∧ engineOne.stuck = false :=
  ⟨rfl, rfl, rfl⟩

/-- P2's command stuck, with a host write outside its sets still to be performed. -/
theorem witness_StuckEngineMakesNoProgress :
    (engineStuck engineP2 busyP2).phase = .busy { engineP2 with stuck := true } ∧
      (∃ t, step (engineStuck engineP2 busyP2) = .next t) ∧
      ∃ t, step { engineStuck engineP2 busyP2 with posted := [(0x3020#32, 7#8)], inputs := [.memDrain] } = .next t :=
  ⟨rfl, ⟨_, rfl⟩, _, rfl⟩

theorem witness_DoneMeansEveryPixelWritten : lastOne.Inv ∧ lastOne.phase = .busy engineOne ∧
    step lastOne = .next (complete lastOne) ∧ (complete lastOne).phase = .idle ∧ (∀ rest, lastOne.inputs ≠ .reset :: rest) ∧
    0 < engineOne.snap.args.dstH ∧ 0 < engineOne.snap.args.dstW :=
  ⟨lastOne_inv, rfl, rfl, rfl, fun _ h => (by cases h), by decide, by decide⟩

theorem witness_StepKeepsInvariant : busyP2.Inv ∧ (∃ t, step busyP2 = .next t) ∧ lastOne.Inv ∧ (∃ t, step lastOne = .next t) :=
  ⟨busyP2_inv, ⟨_, rfl⟩, lastOne_inv, ⟨_, rfl⟩⟩

theorem witness_ResetMeetsInvariant : stateP2.mem.wf = true := stateP2_wf

theorem witness_CommandRunsToCompletion :
    { stateP2 with inputs := engineTurns [1, 0, 0] }.phase = .idle ∧ stateP2.mem.wf = true ∧ rotSupported .rot0 = true ∧
      ArgsPass stateP2.args ∧ DutiesKept .l420 { stateP2 with inputs := engineTurns [1, 0, 0] } ∧
      (∀ a, kindAt stateP2.regions a = none) ∧ [1, 0, 0].length = stateP2.args.dstH + 1 :=
  ⟨rfl, stateP2_wf, rfl, stateP2_passes, stateP2_duties, fun _ => rfl, by decide⟩

theorem witness_BusyReadIsOldOrNew : busyP2.Inv ∧ busyP2.phase = .busy engineP2 ∧ 1 < engineP2.snap.args.dstH ∧
    3 < engineP2.snap.args.dstW ∧ (0x301C#32).toNat = addrOf (dstPixel engineP2.snap.args 1 3) ∧
    (∀ b, kindAt busyP2.regions b = none) :=
  ⟨busyP2_inv, rfl, by decide, by decide, by decide, fun _ => rfl⟩

theorem witness_IdleReadReturnsMemory : stateP2.phase = .idle ∧ kindAt stateP2.regions (0xFFFFFFFF#32).toNat = none := ⟨rfl, rfl⟩

/-- A write while IDLE, one while BUSY outside the command's sets, and one in them. -/
theorem witness_PostedWritePerformed :
    ({ stateP2 with posted := [(0x1000#32, 7#8)] }.posted = (0x1000#32, 7#8) :: [] ∧ stateP2.phase = .idle ∧
      kindAt stateP2.regions (0x1000#32).toNat = none) ∧
    (busyP2.phase = .busy engineP2 ∧ spansHold (dstSpans engineP2.snap.args) (0x3020#32).toNat = false ∧
      spansHold (sampleSpans engineP2.snap.layout engineP2.snap.args) (0x3020#32).toNat = false) ∧
    spansHold (sampleSpans engineP2.snap.layout engineP2.snap.args) (0x1007#32).toNat = true :=
  ⟨⟨rfl, rfl, rfl⟩, ⟨rfl, by decide, by decide⟩, by decide⟩

/-- A step that changes an argument register, one that changes CMD, and one that keeps a command in progress. -/
theorem witness_RegistersChangeOnlyByTheHost :
    (after (step { stateP2 with inputs := [.regWrite 0x08#6 4 5] }) fun t => decide (t.args ≠ stateP2.args)) = some true ∧
    (after (step { stateP2 with inputs := [.regWrite 0x00#6 4 5] }) fun t => decide (t.cmd ≠ stateP2.cmd)) = some true ∧
      ∃ t, step busyP2 = .next t ∧ busyP2.phase = .busy engineP2 ∧ ∃ e', t.phase = .busy e' :=
  ⟨by decide, by decide, _, rfl, rfl, _, rfl⟩

/-- Both moves of the phase, and the reset input. -/
theorem witness_PhaseMoves :
    step { stateP2 with inputs := [.regWrite 0x00#6 4 1] } = .next busyP2 ∧ stateP2.phase = .idle ∧
      busyP2.phase = .busy engineP2 ∧ step lastOne = .next (complete lastOne) ∧ lastOne.phase = .busy engineOne ∧
      (complete lastOne).phase = .idle ∧ (∃ t, step { busyP2 with inputs := [.reset] } = .next t) :=
  ⟨rfl, rfl, rfl, rfl, rfl, rfl, _, rfl⟩

/-- OVERRUN set by a dropped write, and cleared by issuing an illegal word. -/
theorem witness_OverrunSetAndCleared :
    (busyP2.overrun = false ∧
      (after (step { busyP2 with inputs := [.regWrite 0x08#6 4 5] }) (·.overrun)) = some true) ∧
    (after (step { stateP2 with overrun := true, inputs := [.regWrite 0x00#6 4 0] }) (·.overrun)) = some false := by decide

theorem witness_IdleMemoryChangesOnlyByTheHost :
    (after (step { stateP2 with posted := [(0x1000#32, 7#8)], inputs := [.memDrain] }) fun t => decide (t.mem ≠ stateP2.mem)) =
      some true ∧ stateP2.phase = .idle := ⟨by decide, rfl⟩

theorem witness_RotationsAtIdentityScale : argError argsP2 = none ∧ argsP2.dstW = argsP2.srcW ∧ argsP2.dstH = argsP2.srcH ∧
    (∀ b, kindAt [] b = none) ∧ 1 < argsP2.dstH ∧ 3 < argsP2.dstW ∧ argsP2.srcH % 2 = 0 ∧
    (argError argsOne = none ∧ argsOne.dstW = argsOne.srcW ∧ argsOne.dstH = argsOne.srcH ∧ argsOne.srcW % 2 = 1) :=
  ⟨by decide, by decide, by decide, fun _ => rfl, by decide, by decide, by decide, by decide⟩

end Sys2Proof.Tests
end

section
/-! SUPPORT and PROOF. A bus access by where it begins and ends, relative to the register window (R7, R16, R40; log 13). -/

namespace Sys2Proof.Machine

/-- REG_BASE is 64 times a value that the spec leaves open (R7). -/
theorem regBase_mod_64 : Config.regBase % 64 = 0 := Nat.mul_mod_right 64 Config.regBlock

/-- A bus write that begins in the window is the register write at its offset (R16). -/
theorem hostBusWrite_inWindow (off : BitVec 6) (size : Nat) (v : Word) (s : State) :
    hostBusWrite (Config.regBase + off.toNat) size v s = hostRegWrite off size v s := by
  simp only [hostBusWrite, windowOffset_add]

/-- A bus read that begins in the window is the register read at its offset (R16). -/
theorem hostBusRead_inWindow (off : BitVec 6) (size : Nat) (s : State) :
    hostBusRead (Config.regBase + off.toNat) size s = hostRegRead off size s := by
  simp only [hostBusRead, windowOffset_add]

/-- A bus write that begins outside the window is no register write. -/
theorem hostBusWrite_outside {addr : Nat} (h : addr < Config.regBase ∨ Config.regBase + 64 ≤ addr) (size : Nat) (v : Word)
    (s : State) : hostBusWrite addr size v s = hostBusElsewhere addr size s := by
  simp only [hostBusWrite, windowOffset_none h]

/-- A bus read that begins outside the window is no register read. -/
theorem hostBusRead_outside {addr : Nat} (h : addr < Config.regBase ∨ Config.regBase + 64 ≤ addr) (size : Nat)
    (s : State) : hostBusRead addr size s = hostBusElsewhere addr size s := by
  simp only [hostBusRead, windowOffset_none h]

/-- An access that begins below the window and reaches into it is refused (R40, log 13). -/
theorem hostBusElsewhere_into_window {addr size : Nat} (hb : addr < Config.regBase) (he : Config.regBase < addr + size)
    (s : State) : hostBusElsewhere addr size s = .refused .registerAccessNotAlignedWord :=
  if_pos ((runsIntoWindow_iff addr size).2 ⟨hb, he⟩)

/-- An access that does not both begin below the window and reach past REG_BASE is no access to the block (log 13). -/
theorem hostBusElsewhere_clear {addr size : Nat} (h : ¬(addr < Config.regBase ∧ Config.regBase < addr + size))
    (s : State) : hostBusElsewhere addr size s = .next s :=
  if_neg (mt (runsIntoWindow_iff addr size).1 h)

/-- Settles O10: an access that begins in the window has an offset there; any other one is refused or leaves the state as it
is by whether it runs into the window. -/
theorem registerWindow : Obligations.RegisterWindow := by
  refine ⟨regBase_mod_64, fun s off size v => ?inWindow, fun s addr size v hb he => ?intoWindow,
    fun s addr size v h => ?clear⟩
  case inWindow => exact ⟨hostBusWrite_inWindow off size v s, hostBusRead_inWindow off size s⟩
  case intoWindow =>
    have refusal := hostBusElsewhere_into_window hb he s
    exact ⟨(hostBusWrite_outside (.inl hb) size v s).trans refusal, (hostBusRead_outside (.inl hb) size s).trans refusal⟩
  case clear =>
    have outside : addr < Config.regBase ∨ Config.regBase + 64 ≤ addr := h.imp_left And.left
    have same := hostBusElsewhere_clear (addr := addr) (size := size) (by omega) s
    exact ⟨(hostBusWrite_outside outside size v s).trans same, (hostBusRead_outside outside size s).trans same⟩

end Sys2Proof.Machine
end

section
/-! SUPPORT and PROOF. The registers as the host sees them: the STATUS word, reads, the cases of a write, and the commands that a CMD write runs (R27, R28, R38 to R40). -/

namespace Sys2Proof.Machine

/-- An access that is no aligned 32-bit access (R40). -/
theorem alignedWord_false {off : BitVec 6} {size : Nat} (h : size ≠ 4 ∨ off.toNat % 4 ≠ 0) :
    alignedWord off size = false := by
  rw [← Bool.not_eq_true, alignedWord_iff]; omega

/-- An aligned host read answers the register at its offset (R38). -/
theorem regRead_aligned {off : BitVec 6} (h : off.toNat % 4 = 0) (s : State) :
    act (.regRead off 4) s = .next { s with busData := wordBytes (readReg s (regAt off)) } :=
  if_pos ((alignedWord_iff off 4).2 ⟨rfl, h⟩)

/-- A write to STATUS or to a reserved offset does nothing (R28, R33). -/
theorem regWrite_ignored {off : BitVec 6} (ha : off.toNat % 4 = 0) (hr : regAt off = .status ∨ regAt off = .reserved)
    (v : Word) (s : State) : act (.regWrite off 4 v) s = .next s := by
  rw [regWrite_aligned ha]
  rcases hr with hr | hr <;> rw [hr]

/-- A write to CMD issues its word (R27). -/
theorem regWrite_cmd {off : BitVec 6} (ha : off.toNat % 4 = 0) (hr : regAt off = .cmd) (v : Word) (s : State) :
    act (.regWrite off 4 v) s = writeCmd v s := by rw [regWrite_aligned ha, hr]

/-- A write to any other register is a write to an argument register (R39). -/
theorem regWrite_arg {off : BitVec 6} (ha : off.toNat % 4 = 0) (hc : regAt off ≠ .cmd) (hs : regAt off ≠ .status)
    (hr : regAt off ≠ .reserved) (v : Word) (s : State) :
    act (.regWrite off 4 v) s = .next (writeArg (regAt off) v s) := by
  rw [regWrite_aligned ha]
  split
  · exact absurd ‹_› hs
  · exact absurd ‹_› hr
  · exact absurd ‹_› hc
  · rfl

/-- A write to an argument register is taken while IDLE (R39). -/
theorem writeArg_idle {s : State} (h : s.phase = .idle) (r : Reg) (v : Word) :
    writeArg r v s = { s with args := s.args.set r v } := by simp only [writeArg, h]

/-- A write to an argument register is dropped while BUSY (R39). -/
theorem writeArg_busy {s : State} {e : Engine} (h : s.phase = .busy e) (r : Reg) (v : Word) :
    writeArg r v s = setOverrun s := by simp only [writeArg, h]

/-- An argument register reads as what was written to it (R17 to R26). -/
theorem readReg_set_same (s : State) {r : Reg} (hc : r ≠ .cmd) (hs : r ≠ .status) (hr : r ≠ .reserved) (v : Word) :
    readReg { s with args := s.args.set r v } r = v := by
  cases r
  case cmd => exact absurd rfl hc
  case status => exact absurd rfl hs
  case reserved => exact absurd rfl hr
  all_goals rfl

/-- A write to an argument register leaves what every other register reads as (R39). -/
theorem readReg_set_other (s : State) {r r' : Reg} (h : r' ≠ r) (v : Word) :
    readReg { s with args := s.args.set r v } r' = readReg s r' := by
  cases r'
  case cmd => rfl
  case status => rfl
  case reserved => rfl
  all_goals cases r <;> simp [readReg, Args.set] at h ⊢

/-- A CMD write of a word that decodes executes its command (R27, R70). -/
theorem writeCmd_decoded {w : Word} {i : Instr} (h : decode w = .ok i) (s : State) : writeCmd w s = exec i s := by
  simp only [writeCmd, h]

/-- A CMD write of a word that does not decode issues it as an illegal command (R109). -/
theorem writeCmd_illegal {w : Word} {err : DecodeError} (h : decode w = .error err) (s : State) :
    writeCmd w s = issueRejected w .illegalCommand s := by simp only [writeCmd, h]

/-- A CMD write while BUSY is dropped (R39). -/
theorem writeCmd_busy {s : State} {e : Engine} (h : s.phase = .busy e) (w : Word) :
    writeCmd w s = .next (setOverrun s) := by
  cases hd : decode w with
  | error err => rw [writeCmd_illegal hd]; simp only [issueRejected, h]
  | ok i =>
    obtain ⟨l, r, rfl, -⟩ := decode_command hd
    rw [writeCmd_decoded hd, exec_command_busy l r h]

/-- A CMD write while IDLE leaves its word in CMD wherever it answers a next state (R27, R108). -/
theorem writeCmd_idle_cmd {s t : State} (hi : s.phase = .idle) {w : Word} (h : writeCmd w s = .next t) : t.cmd = w := by
  rcases writeCmd_next h with ⟨e, hb, -⟩ | ⟨-, ⟨c, rfl⟩ | ⟨l, r, rfl, -, -, -, rfl⟩⟩
  · cases hi.symm.trans hb
  · rfl
  · rfl

/-- Settles O8: the register at the offset says which of the four cases of R39 a write is. -/
theorem registerWrites : Obligations.RegisterWrites := by
  intro s off v ha
  refine ⟨fun hr => regWrite_ignored ha hr v s, fun hr hi => ?command, fun hc hs hr hi => ?argument,
    fun hs hr e hb => ?dropped⟩
  case command =>
    rw [regWrite_cmd ha hr]
    refine ⟨fun i hd => writeCmd_decoded hd s, fun err hd => ?_, fun t => writeCmd_idle_cmd hi⟩
    rw [writeCmd_illegal hd, issueRejected_idle hi]
  case argument =>
    refine ⟨s.args.set (regAt off) v, ?_, readReg_set_same s hc hs hr v, fun r hne => readReg_set_other s hne v⟩
    rw [regWrite_arg ha hc hs hr, writeArg_idle hi]
  case dropped =>
    by_cases hc : regAt off = .cmd
    · rw [regWrite_cmd ha hc, writeCmd_busy hb]; rfl
    · rw [regWrite_arg ha hc hs hr, writeArg_busy hb]; rfl

/-- The fields of the STATUS word, bit by bit (R28). -/
theorem statusWord_fields (s : State) :
    (statusWord s).getLsbD 0 = s.phase.isBusy ∧ (statusWord s).getLsbD 1 = s.done ∧
      (statusWord s).getLsbD 2 = s.overrun ∧ (statusWord s).getLsbD 3 = false ∧
      (statusWord s).extractLsb' 4 4 = s.err.code ∧ (statusWord s).extractLsb' 8 24 = 0 := by
  unfold statusWord
  cases s.phase.isBusy <;> cases s.done <;> cases s.overrun <;> cases s.err <;> decide

/-- Settles O6, by the fields of the STATUS word and the cases of a write and of a read at its offset. -/
theorem statusRegister : Obligations.StatusRegister :=
  ⟨fun s => ⟨statusWord_fields s, fun v => regWrite_ignored rfl (.inl rfl) v s, regRead_aligned rfl s⟩, rfl⟩

/-- Settles O7: each of the sixteen offsets is aligned, and its register is that of the map of R16. -/
theorem registerReads : Obligations.RegisterReads := by
  intro s off v h
  simp only [List.mem_cons, Prod.mk.injEq, List.not_mem_nil, or_false] at h
  rcases h with ⟨rfl, rfl⟩ | ⟨rfl, rfl⟩ | ⟨rfl, rfl⟩ | ⟨rfl, rfl⟩ | ⟨rfl, rfl⟩ | ⟨rfl, rfl⟩ | ⟨rfl, rfl⟩ | ⟨rfl, rfl⟩ |
    ⟨rfl, rfl⟩ | ⟨rfl, rfl⟩ | ⟨rfl, rfl⟩ | ⟨rfl, rfl⟩ | ⟨rfl, rfl⟩ | ⟨rfl, rfl⟩ | ⟨rfl, rfl⟩ | ⟨rfl, rfl⟩
  all_goals exact regRead_aligned rfl s

/-- Settles O9: the alignment check fails, for a write and for a read. -/
theorem unalignedRegisterAccessRefused : Obligations.UnalignedRegisterAccessRefused := by
  intro s off size v h
  have unaligned : ¬ alignedWord off size = true := by rw [alignedWord_false h]; decide
  exact ⟨if_neg unaligned, if_neg unaligned⟩

/-- Every command is a well-formed instruction (R72: it has no operand). -/
theorem commandOf_wf (l : Layout) (r : Rotation) : (commandOf l r).wf = true := by
  cases l <;> cases r <;> rfl

/-- A step whose event is a CMD write of a word that decodes executes the word's command (R27, R120). -/
theorem step_cmdWrite {s : State} {w : Word} {i : Instr} {rest : List Input}
    (hin : s.inputs = .regWrite 0x00#6 4 w :: rest) (hd : decode w = .ok i) :
    step s = exec i { s with inputs := rest } := by
  rw [step_cons hin, regWrite_cmd rfl rfl, writeCmd_decoded hd]

/-- Settles O11: the step issues the word, and what decodes is a command. -/
theorem stepRunsTheCommandWritten : Obligations.StepRunsTheCommandWritten := by
  intro s w i rest hin hd
  obtain ⟨l, r, rfl, -⟩ := decode_command hd
  exact ⟨commandOf_wf l r, step_cmdWrite hin hd⟩

/-- The 32 bits of a word are the word (R65). -/
theorem ofNat_toNat_mod (w : Word) : BitVec.ofNat 32 (w.toNat % 2 ^ 32) = w := by
  rw [Nat.mod_eq_of_lt w.isLt, BitVec.ofNat_toNat, BitVec.setWidth_eq]

/-- The host's window decodes the 32 bits of a word as the decoder decodes the word (R49, R65, R70). -/
theorem decodeTableWord_decoded {w : Word} {i : Instr} (h : decode w = .ok i) :
    decodeTableWord 32 w.toNat = some i := by
  have hbytes : decodeBytes (wordBytes w) = .ok (i, []) := by
    simp only [wordBytes, decodeBytes, wordOf_bytes, h]
  simp only [decodeTableWord, ofNat_toNat_mod, hbytes]

/-- Settles O12: the placed word is the next event, a CMD write, with the phase IDLE. -/
theorem placedCommandRuns : Obligations.PlacedCommandRuns := by
  intro s w i hd
  have hplaced : s.withFetchWord 32 w.toNat = placeCommand w s := by rw [State.withFetchWord, ofNat_toNat_mod]
  refine ⟨decodeTableWord_decoded hd, ?_⟩
  rw [hplaced, step_cmdWrite (placeCommand_inputs w s) hd]; rfl

/-- Settles O20: every command issued while BUSY is dropped. -/
theorem commandWhileBusyDropped : Obligations.CommandWhileBusyDropped := fun _ _ l r hb => exec_command_busy l r hb

end Sys2Proof.Machine
end

section
/-! SUPPORT and PROOF. Every step keeps the invariant of the machine (R27, R30, R32, R34, R35, R53, R54, R59): one lemma per event that can touch what the invariant speaks of. -/

namespace Sys2Proof.Machine

/-- The invariant while IDLE: memory in canonical form, and DONE excludes an error (R30, R32). -/
theorem inv_idle {s : State} (h : s.phase = .idle) :
    s.Inv ↔ s.mem.wf = true ∧ (s.done = true → s.err = .none) := by
  unfold State.Inv; rw [h]

/-- The invariant while BUSY: memory in canonical form, and what holds of the command in progress. -/
theorem inv_busy {s : State} {e : Engine} (h : s.phase = .busy e) : s.Inv ↔ s.mem.wf = true ∧ EngineInv s e := by
  unfold State.Inv; rw [h]

/-- The invariant does not speak of the events to come. -/
theorem inv_inputs {s : State} (h : s.Inv) (ins : List Input) : { s with inputs := ins }.Inv := h

/-- The invariant of a command in progress depends on memory only through the bytes of the command's sets. -/
theorem engineInv_mem {s : State} {e : Engine} (hi : EngineInv s e) {m : Memory} {posted : List (BitVec 32 × Byte)}
    (hm : ∀ a, commandHolds e a = true → m.read a = s.mem.read a) :
    EngineInv { s with mem := m, posted := posted } e := by
  obtain ⟨hfix, hpending, hsamples, hold, hnew⟩ := hi
  have hargs : e.snap.args = s.args := hfix.2.2.1
  have hsample : ∀ a, spansHold (sampleSpans e.snap.layout s.args) a = true → m.read a = s.mem.read a := fun a ha =>
    hm a (by rw [commandHolds, hargs, ha, Bool.or_true])
  have hrow : ∀ y, y < s.args.dstH → ∀ a, (rowSpan (dstRow s.args y) s.args.dstW).holds a = true →
      m.read a = s.mem.read a := fun y hy a ha =>
    hm a (by rw [commandHolds, hargs, row_in_dst hy ha, Bool.true_or])
  refine ⟨hfix, hpending, fun a ha => (hsample a ha).trans (hsamples a ha),
    fun y hy a ha => (hrow y (hpending.2.1 y hy) a ha).trans (hold y hy a ha), fun y hy hdone x hx => ?_⟩
  have hword : m.readWord (dstPixel s.args y x) = s.mem.readWord (dstPixel s.args y x) :=
    readWord_congr fun k hk => hrow y hy _ (pixel_in_row s.args hx hk)
  exact (hnew y hy hdone x hx).trans (congrArg some hword.symm)

/-- A host register write keeps the invariant: dropped, taken by an argument register while IDLE, rejected, or accepted
with checks passed and duties kept (R39, R108). -/
theorem hostRegWrite_keeps_inv {off : BitVec 6} {size : Nat} {v : Word} {s t : State} (hi : s.Inv)
    (h : hostRegWrite off size v s = .next t) : t.Inv := by
  rcases hostRegWrite_next h with rfl | ⟨e, -, -, -, rfl⟩ | ⟨hp, -, -, -, rfl⟩ |
    ⟨hp, -, -, ⟨c, rfl⟩ | ⟨l, r, -, hr, hc, hd, rfl⟩⟩
  · exact hi
  · exact hi
  · exact (inv_idle (by exact hp)).2 ((inv_idle hp).1 hi)
  · exact (inv_idle (by exact hp)).2 ⟨hi.1, fun hdone => Bool.noConfusion hdone⟩
  · exact accepted_inv hi.1 hr hc ((dutyBroken_none_iff hc).1 hd).1

/-- The performing of a posted write keeps the invariant: while BUSY it touches no byte of the command's sets (R130 (2)). -/
theorem hostDrain_keeps_inv {s t : State} (hi : s.Inv) (h : hostDrain s = .next t) : t.Inv := by
  rcases hostDrain_next h with rfl | ⟨a, v, rest, -, -, hp | ⟨e, hp, hout⟩, rfl⟩
  · exact hi
  · obtain ⟨hwf, hdone⟩ := (inv_idle hp).1 hi
    exact (inv_idle (by exact hp)).2 ⟨wf_write v a.isLt hwf, hdone⟩
  · obtain ⟨hwf, hengine⟩ := (inv_busy hp).1 hi
    refine (inv_busy (by exact hp)).2 ⟨wf_write v a.isLt hwf, engineInv_mem hengine fun b hb => ?_⟩
    have hne : b ≠ a.toNat := by rintro rfl; rw [hout] at hb; cases hb
    rw [read_write, if_neg hne]

/-- A turn of the engine keeps the invariant, whatever it does (R64, R93, R104). -/
theorem engineTurn_keeps_inv {pick : Nat} {s t : State} (hi : s.Inv) (h : engineTurn pick s = .next t) : t.Inv := by
  rcases engineTurn_next h with ⟨rfl, -⟩ | ⟨e, hp, -, -, rfl⟩ | ⟨e, hp, -, hpending, rfl⟩ | ⟨e, y, m, hp, hs, hy, hm, rfl⟩
  · exact hi
  · obtain ⟨hwf, ⟨-, herr, -⟩, -⟩ := (inv_busy hp).1 hi
    exact ⟨hwf, fun _ => herr⟩
  · obtain ⟨hwf, hengine⟩ := (inv_busy hp).1 hi
    exact ⟨hwf, engineInv_stuck hengine hpending⟩
  · obtain ⟨hwf, hengine⟩ := (inv_busy hp).1 hi
    exact ⟨rowLoop_wf _ _ _ _ hm hwf, engineInv_row hengine hs hy hm⟩

/-- The reset input leaves a state that meets the invariant (R127, R128). -/
theorem resetInput_inv {s : State} (h : s.mem.wf = true) : (resetInput s).Inv :=
  ⟨resetMem_wf h, fun hdone => by cases hdone⟩

/-- Every event keeps the invariant. -/
theorem act_keeps_inv {ev : Input} {s t : State} (hi : s.Inv) (h : act ev s = .next t) : t.Inv := by
  cases ev with
  | regWrite off size v => exact hostRegWrite_keeps_inv hi h
  | regRead off size => rw [hostRegRead_next h]; exact hi
  | busWrite addr size v =>
    rcases hostBusWrite_next h with rfl | ⟨off, -, hw⟩
    · exact hi
    · exact hostRegWrite_keeps_inv hi hw
  | busRead addr size => rw [hostBusRead_next h]; exact hi
  | memWrite a v => cases h; exact hi
  | memDrain => exact hostDrain_keeps_inv hi h
  | memRead a count => rw [hostMemRead_next h]; exact hi
  | engine pick => exact engineTurn_keeps_inv hi h
  | reset => cases h; exact resetInput_inv hi.1

/-- Settles O43: a step is a turn of the engine or the oldest listed event, and each keeps the invariant. -/
theorem stepKeepsInvariant : Obligations.StepKeepsInvariant := by
  intro s t hi h
  rcases step_act h with ⟨-, hturn⟩ | ⟨ev, rest, -, hact⟩
  · exact engineTurn_keeps_inv hi hturn
  · exact act_keeps_inv (inv_inputs hi rest) hact

end Sys2Proof.Machine
end

section
/-! SUPPORT and PROOF. The effect of one step on the registers and the phase, said once as an inductive predicate, and what follows of it for the arguments, CMD, OVERRUN, the phase and the end of a command (R14, R31, R34, R35, R39, R104). -/

namespace Sys2Proof.Machine

/-- What one step from `s` to `t` does to the registers and the engine phase: one constructor for each way. -/
inductive StepEffect (s t : State) : Prop
  /-- The reset input (R127). -/
  | reset (rest : List Input) (event : s.inputs = .reset :: rest)
  /-- An event that leaves every register, OVERRUN and the phase as they are. -/
  | kept (args : t.args = s.args) (cmd : t.cmd = s.cmd) (overrun : t.overrun = s.overrun) (phase : t.phase = s.phase)
  /-- A turn of the engine that is not stuck: it completes the command (R104), gets stuck (R64) or produces a row (R93). -/
  | turned (e : Engine) (busy : s.phase = .busy e) (free : e.stuck = false) (args : t.args = s.args)
      (cmd : t.cmd = s.cmd) (overrun : t.overrun = s.overrun)
      (outcome : (e.pending = [] ∧ t = complete { s with inputs := t.inputs }) ∨
        t.phase = .busy { e with stuck := true } ∨ ∃ j, t.phase = .busy { e with pending := e.pending.eraseIdx j })
  /-- A host write to CMD or an argument register while BUSY (R39). -/
  | writeDropped (e : Engine) (off : BitVec 6) (v : Word) (rest : List Input) (busy : s.phase = .busy e)
      (takes : TakesWrite off) (event : WritesRegister s off v rest)
      (next : t = { s with overrun := true, inputs := rest })
  /-- A host write to an argument register while IDLE (R39). -/
  | argumentWritten (off : BitVec 6) (v : Word) (rest : List Input) (idle : s.phase = .idle) (takes : TakesWrite off)
      (notCmd : regAt off ≠ .cmd) (event : WritesRegister s off v rest)
      (next : t = { s with args := s.args.set (regAt off) v, inputs := rest })
  /-- A host write to CMD while IDLE of a word that is rejected (R114). -/
  | commandRejected (w : Word) (c : ErrorCode) (rest : List Input) (idle : s.phase = .idle)
      (event : WritesRegister s 0x00#6 w rest) (next : t = rejected w c { s with inputs := rest })
  /-- A host write to CMD while IDLE of a command that is accepted (R115). -/
  | commandAccepted (l : Layout) (r : Rotation) (rest : List Input) (idle : s.phase = .idle)
      (event : WritesRegister s 0x00#6 (commandWord l r) rest) (supported : rotSupported r = true)
      (checks : argError s.args = none) (next : t = accepted l r { s with inputs := rest })

/-- A host register write, as the event of a step, has one of the effects of `StepEffect`. -/
theorem stepEffect_of_hostRegWrite {s t : State} {off : BitVec 6} {size : Nat} {v : Word} {rest : List Input}
    (hin : s.inputs = .regWrite off size v :: rest ∨ s.inputs = .busWrite (Config.regBase + off.toNat) size v :: rest)
    (h : hostRegWrite off size v { s with inputs := rest } = .next t) : StepEffect s t := by
  rcases hostRegWrite_next h with rfl | ⟨e, hp, rfl, htakes, rfl⟩ | ⟨hp, rfl, htakes, hcmd, rfl⟩ |
    ⟨hp, rfl, rfl, ⟨c, rfl⟩ | ⟨l, r, rfl, hr, hc, -, rfl⟩⟩
  case inl => exact .kept rfl rfl rfl rfl
  case inr.inl => exact .writeDropped e off v rest hp htakes hin rfl
  case inr.inr.inl => exact .argumentWritten off v rest hp htakes hcmd hin rfl
  case inr.inr.inr.inl => exact .commandRejected v c rest hp hin rfl
  case inr.inr.inr.inr => exact .commandAccepted l r rest hp hin hr hc rfl

/-- Every step has one of the effects of `StepEffect`. -/
theorem step_effect {s t : State} (h : step s = .next t) : StepEffect s t := by
  rcases step_block h with ⟨hargs, hcmd, hphase, -, hoverrun, -⟩ | ⟨rest, hin⟩ | ⟨off, size, v, rest, hin, hw⟩ |
    ⟨e, hp, hs, hpending, ht⟩ | ⟨e, hp, hs, -, ht⟩ | ⟨e, j, m, hp, hs, ht⟩
  · exact .kept hargs hcmd hoverrun hphase
  · exact .reset rest hin
  · exact stepEffect_of_hostRegWrite hin hw
  · exact .turned e hp hs (by rw [ht]; rfl) (by rw [ht]; rfl) (by rw [ht]; rfl) (.inl ⟨hpending, ht⟩)
  · exact .turned e hp hs (by rw [ht]; rfl) (by rw [ht]; rfl) (by rw [ht]; rfl) (.inr (.inl (by rw [ht]; rfl)))
  · exact .turned e hp hs (by rw [ht]; rfl) (by rw [ht]; rfl) (by rw [ht]; rfl) (.inr (.inr ⟨j, by rw [ht]; rfl⟩))

/-- The argument registers change only by the reset input, or by a host write to one of them while IDLE (R39). -/
theorem step_changes_args {s t : State} (h : step s = .next t) (hne : t.args ≠ s.args) :
    (∃ rest, s.inputs = .reset :: rest) ∨
      (s.phase = .idle ∧ ∃ off v rest, TakesWrite off ∧ regAt off ≠ .cmd ∧ WritesRegister s off v rest ∧
        t.args = s.args.set (regAt off) v ∧ t.cmd = s.cmd) := by
  cases step_effect h with
  | reset rest event => exact .inl ⟨rest, event⟩
  | kept args => exact absurd args hne
  | turned _ _ _ args => exact absurd args hne
  | writeDropped _ _ _ _ _ _ _ next => exact absurd (by rw [next]) hne
  | argumentWritten off v rest idle takes notCmd event next =>
    exact .inr ⟨idle, off, v, rest, takes, notCmd, event, by rw [next], by rw [next]⟩
  | commandRejected _ _ _ _ _ next => exact absurd (by rw [next]; rfl) hne
  | commandAccepted _ _ _ _ _ _ _ next => exact absurd (by rw [next]; rfl) hne

/-- CMD changes only by the reset input, or by a host write to it while IDLE of the word it then holds (R27, R39). -/
theorem step_changes_cmd {s t : State} (h : step s = .next t) (hne : t.cmd ≠ s.cmd) :
    (∃ rest, s.inputs = .reset :: rest) ∨
      (s.phase = .idle ∧ t.args = s.args ∧ ∃ rest, WritesRegister s 0x00#6 t.cmd rest) := by
  cases step_effect h with
  | reset rest event => exact .inl ⟨rest, event⟩
  | kept _ cmd => exact absurd cmd hne
  | turned _ _ _ _ cmd => exact absurd cmd hne
  | writeDropped _ _ _ _ _ _ _ next => exact absurd (by rw [next]) hne
  | argumentWritten _ _ _ _ _ _ _ next => exact absurd (by rw [next]) hne
  | commandRejected _ _ rest idle event next => subst next; exact .inr ⟨idle, rfl, rest, event⟩
  | commandAccepted _ _ rest idle event _ _ next => subst next; exact .inr ⟨idle, rfl, rest, event⟩

/-- What a step leaves of a command in progress: all of it, the engine now stuck, or one row fewer; or it ends the
command, by completion or by the reset input. -/
theorem step_while_busy {s t : State} {e : Engine} (h : step s = .next t) (hb : s.phase = .busy e) :
    t.phase = .busy e ∨ (e.stuck = false ∧ t.phase = .busy { e with stuck := true }) ∨
      (e.stuck = false ∧ ∃ j, t.phase = .busy { e with pending := e.pending.eraseIdx j }) ∨
      (e.stuck = false ∧ e.pending = [] ∧ t = complete { s with inputs := t.inputs }) ∨
      ((∃ rest, s.inputs = .reset :: rest) ∧ t.phase = .idle) := by
  cases step_effect h with
  | reset rest event =>
    rw [step_cons event] at h; cases h
    exact .inr (.inr (.inr (.inr ⟨⟨rest, event⟩, rfl⟩)))
  | kept _ _ _ phase => exact .inl (phase.trans hb)
  | turned e' busy free _ _ _ outcome =>
    cases hb.symm.trans busy
    rcases outcome with ⟨pending, next⟩ | stuck | row
    · exact .inr (.inr (.inr (.inl ⟨free, pending, next⟩)))
    · exact .inr (.inl ⟨free, stuck⟩)
    · exact .inr (.inr (.inl ⟨free, row⟩))
  | writeDropped _ _ _ _ _ _ _ next => exact .inl (by rw [next]; exact hb)
  | argumentWritten _ _ _ idle => cases hb.symm.trans idle
  | commandRejected _ _ _ idle => cases hb.symm.trans idle
  | commandAccepted _ _ _ idle => cases hb.symm.trans idle

/-- A command in progress keeps its snapshot, its geometry and the memory it started from, its pending rows only become
fewer, and a stuck engine keeps all it holds (R35, R64). -/
theorem step_keeps_command {s t : State} {e e' : Engine} (h : step s = .next t) (hb : s.phase = .busy e)
    (hb' : t.phase = .busy e') :
    (e'.snap = e.snap ∧ e'.norm = e.norm ∧ e'.before = e.before ∧ e'.pending.Sublist e.pending) ∧
      (e.stuck = true → e' = e) := by
  rcases step_while_busy h hb with ht | ⟨free, ht⟩ | ⟨free, j, ht⟩ | ⟨-, -, ht⟩ | ⟨-, ht⟩
  · cases hb'.symm.trans ht
    exact ⟨⟨rfl, rfl, rfl, List.Sublist.refl _⟩, fun _ => rfl⟩
  · cases hb'.symm.trans ht
    exact ⟨⟨rfl, rfl, rfl, List.Sublist.refl _⟩, fun stuck => by rw [free] at stuck; cases stuck⟩
  · cases hb'.symm.trans ht
    exact ⟨⟨rfl, rfl, rfl, List.eraseIdx_sublist ..⟩, fun stuck => by rw [free] at stuck; cases stuck⟩
  · rw [ht] at hb'; cases hb'
  · cases hb'.symm.trans ht

/-- A step that ends a command is its completion or the reset input (R34, R104). -/
theorem step_ends_command {s t : State} {e : Engine} (h : step s = .next t) (hb : s.phase = .busy e)
    (ht : t.phase = .idle) :
    (∃ rest, s.inputs = .reset :: rest) ∨
      (e.pending = [] ∧ e.stuck = false ∧ t = complete { s with inputs := t.inputs }) := by
  rcases step_while_busy h hb with hp | ⟨-, hp⟩ | ⟨-, j, hp⟩ | ⟨free, pending, next⟩ | ⟨hreset, -⟩
  · cases ht.symm.trans hp
  · cases ht.symm.trans hp
  · cases ht.symm.trans hp
  · exact .inr ⟨pending, free, next⟩
  · exact .inl hreset

/-- A step that starts a command is the acceptance of a supported command's word written to CMD (R34, R115). -/
theorem step_starts_command {s t : State} {e : Engine} (h : step s = .next t) (hi : s.phase = .idle)
    (hb : t.phase = .busy e) :
    ∃ l r rest, WritesRegister s 0x00#6 (commandWord l r) rest ∧ rotSupported r = true ∧ argError s.args = none ∧
      t = accepted l r { s with inputs := rest } := by
  cases step_effect h with
  | reset rest event => rw [step_cons event] at h; cases h; cases hb
  | kept _ _ _ phase => cases hb.symm.trans (phase.trans hi)
  | turned _ busy => cases hi.symm.trans busy
  | writeDropped _ _ _ _ busy => cases hi.symm.trans busy
  | argumentWritten _ _ _ _ _ _ _ next => subst next; cases hi.symm.trans hb
  | commandRejected _ _ _ _ _ next => subst next; cases hi.symm.trans hb
  | commandAccepted l r rest _ event supported checks next => exact ⟨l, r, rest, event, supported, checks, next⟩

/-- While a command is in progress, every pixel of a row no longer pending holds the reference pixel (R54, R105). -/
theorem produced_pixel_ref {s : State} {e : Engine} (hi : EngineInv s e) {y x : Nat} (hy : y < e.snap.args.dstH)
    (hdone : y ∉ e.pending) (hx : x < e.snap.args.dstW) :
    s.mem.readWord (dstPixel e.snap.args y x) = refPixel e.snap e.before y x := by
  obtain ⟨⟨-, -, hargs, -, -, hc, -, hnorm, -⟩, -, -, -, hnew⟩ := hi
  rw [← hargs] at hc hnew
  obtain ⟨hpixel, -⟩ := (newPixel_eq ..).1 (hnew y hy hdone x hx)
  rw [hnorm] at hpixel
  exact rowFn_ref hc hpixel

/-- Settles O42: the step is the completion, so no row is pending and every pixel holds what the command writes. -/
theorem doneMeansEveryPixelWritten : Obligations.DoneMeansEveryPixelWritten := by
  intro s t e hi hb h ht hnoreset
  rcases step_ends_command h hb ht with ⟨rest, hreset⟩ | ⟨hpending, -, hnext⟩
  · exact absurd hreset (hnoreset rest)
  · obtain ⟨-, hengine⟩ := (inv_busy hb).1 hi
    have herr : s.err = .none := hengine.1.2.1
    rw [hnext]
    exact ⟨rfl, herr, fun y x hy hx => produced_pixel_ref hengine hy (by simp [hpending]) hx⟩

/-- Settles O49, by what changes an argument register, what changes CMD, and what a step leaves of a command. -/
theorem registersChangeOnlyByTheHost : Obligations.RegistersChangeOnlyByTheHost := fun _ _ h =>
  ⟨step_changes_args h, step_changes_cmd h, fun _ _ => step_keeps_command h⟩

/-- Settles O50, by the steps that start a command and those that end one. -/
theorem phaseMoves : Obligations.PhaseMoves := by
  intro s t h
  refine ⟨?reset, fun e hi hb => ?starts, fun e hb ht => ?ends⟩
  case reset =>
    rintro ⟨rest, hin⟩
    rw [step_cons hin] at h; cases h; rfl
  case starts =>
    obtain ⟨l, r, rest, hin, hr, hc, rfl⟩ := step_starts_command h hi hb
    cases hb
    exact ⟨l, r, hr, hc, rfl, rfl, rest, hin.imp_right fun hbus => ⟨_, hbus, rfl⟩⟩
  case ends =>
    refine (step_ends_command h hb ht).imp_right ?_
    rintro ⟨hpending, hfree, hnext⟩
    exact ⟨hpending, hfree, by rw [hnext]; rfl⟩

/-- OVERRUN is set only by a host write dropped while BUSY (R31, R39). -/
theorem step_sets_overrun {s t : State} (h : step s = .next t) (hs : s.overrun = false) (ht : t.overrun = true) :
    s.phase ≠ .idle ∧
      ∃ off v rest, TakesWrite off ∧ WritesRegister s off v rest ∧ t = { s with overrun := true, inputs := rest } := by
  have same : t.overrun ≠ s.overrun := by rw [hs, ht]; decide
  cases step_effect h with
  | reset rest event => rw [step_cons event] at h; cases h; cases ht
  | kept _ _ overrun => exact absurd overrun same
  | turned _ _ _ _ _ overrun => exact absurd overrun same
  | writeDropped e off v rest busy takes event next => exact ⟨by rw [busy]; nofun, off, v, rest, takes, event, next⟩
  | argumentWritten _ _ _ _ _ _ _ next => exact absurd (by rw [next]) same
  | commandRejected _ _ _ _ _ next => subst next; cases ht
  | commandAccepted _ _ _ _ _ _ _ next => subst next; cases ht

/-- OVERRUN is cleared only by the reset input or by a command issued while IDLE (R31, R108). -/
theorem step_clears_overrun {s t : State} (h : step s = .next t) (hs : s.overrun = true) (ht : t.overrun = false) :
    (∃ rest, s.inputs = .reset :: rest) ∨ (s.phase = .idle ∧ ∃ rest, WritesRegister s 0x00#6 t.cmd rest) := by
  have same : t.overrun ≠ s.overrun := by rw [hs, ht]; decide
  cases step_effect h with
  | reset rest event => exact .inl ⟨rest, event⟩
  | kept _ _ overrun => exact absurd overrun same
  | turned _ _ _ _ _ overrun => exact absurd overrun same
  | writeDropped _ _ _ _ _ _ _ next => subst next; cases ht
  | argumentWritten _ _ _ _ _ _ _ next => exact absurd (by rw [next]) same
  | commandRejected _ _ rest idle event next => subst next; exact .inr ⟨idle, rest, event⟩
  | commandAccepted _ _ rest idle event _ _ next => subst next; exact .inr ⟨idle, rest, event⟩

/-- Settles O51, by the steps that set OVERRUN and those that clear it. -/
theorem overrunSetAndCleared : Obligations.OverrunSetAndCleared := fun _ _ h =>
  ⟨step_sets_overrun h, step_clears_overrun h⟩

end Sys2Proof.Machine
end

section
/-! SUPPORT and PROOF. The refusals of a supported command at acceptance, one equation for each broken duty in the order of log 11 (R52, R55, R57, R130). -/

namespace Sys2Proof.Machine

/-- A supported command that passes its checks and breaks a duty is refused for it (R108; log 11). -/
theorem exec_refused {l : Layout} {r : Rotation} {s : State} {why : Refusal} (hi : s.phase = .idle)
    (hr : rotSupported r = true) (hpass : ArgsPass s.args) (hduty : dutyBroken l s = some why) :
    exec (commandOf l r) s = .refused why := by
  simp only [exec_supported hr, issueScale, hi, (argError_none_iff s.args).2 hpass, hduty]

/-- Two destination rows that share a byte make the destination set meet itself (R55). -/
theorem dst_selfMeet_of_shared_byte {a : Args} (hc : argError a = none) {y y' b : Nat} (hlt : y < y') (hy' : y' < a.dstH)
    (hb : b < 4294967296) (h : (rowSpan (dstRow a y) a.dstW).holds b = true)
    (h' : (rowSpan (dstRow a y') a.dstW).holds b = true) : spansSelfMeet (dstSpans a) = true := by
  by_contra hno
  obtain ⟨-, -, hw, -⟩ := dims_pos hc
  have hapart : Apart (rowSpan (dstRow a y) a.dstW) (rowSpan (dstRow a y') a.dstW) :=
    planeSpans_rows_apart (by omega) (Bool.eq_false_iff.2 hno) (by omega) hy' (by omega)
  exact Bool.false_ne_true ((hapart b hb h).symm.trans h')

/-- The check for side effects finds one exactly when a byte of the command's sets has them (R52). -/
theorem sets_onSideEffect_iff {rs : List Region} {l : Layout} {a : Args} (hc : argError a = none) :
    (dstSpans a ++ sampleSpans l a).any (spanOnSideEffect rs) = true ↔
      ∃ b, b < 4294967296 ∧ (spansHold (dstSpans a) b || spansHold (sampleSpans l a) b) = true ∧
        regionHas rs .sideEffect b = true := by
  have hspan : ∀ i ∈ dstSpans a ++ sampleSpans l a, spanOnSideEffect rs i = true ↔
      ∃ b, b < 4294967296 ∧ i.holds b = true ∧ regionHas rs .sideEffect b = true := by
    intro i hi
    rcases List.mem_append.1 hi with hi | hi
    · obtain ⟨hstart, hlen⟩ := planeSpans_start hi
      obtain ⟨-, -, hw, -⟩ := dims_pos hc
      exact spanOnSideEffect_iff hstart (by omega)
    · obtain ⟨hstart, hlen⟩ := sampleSpans_start hc hi
      exact spanOnSideEffect_iff hstart hlen
  simp only [← spansHold_append, spansHold_iff, List.any_eq_true]
  constructor
  · rintro ⟨i, hi, h⟩
    obtain ⟨b, hb, hin, hside⟩ := (hspan i hi).1 h
    exact ⟨b, hb, ⟨i, hi, hin⟩, hside⟩
  · rintro ⟨b, hb, ⟨i, hi, hin⟩, hside⟩
    exact ⟨i, hi, (hspan i hi).2 ⟨b, hb, hin, hside⟩⟩

/-- Settles O18: the overlap checks come first, and each decides whether the byte sets share an address. -/
theorem overlappingCommandRefused : Obligations.OverlappingCommandRefused := by
  intro s l r hi hr hpass
  have hc : argError s.args = none := (argError_none_iff s.args).2 hpass
  refine ⟨fun hshared => exec_refused hi hr hpass ?samples, fun hnone hshared => exec_refused hi hr hpass ?itself⟩
  case samples => exact if_pos ((overlap_iff hc).2 hshared)
  case itself =>
    obtain ⟨y, y', b, hlt, hy', hb, h, h'⟩ := hshared
    have hapart : ¬ spansMeet (dstSpans s.args) (sampleSpans l s.args) = true := by
      rw [overlap_iff hc]
      rintro ⟨a, ha, hd, hs⟩
      exact Bool.false_ne_true ((hnone a ha hd).symm.trans hs)
    rw [dutyBroken, if_neg hapart, if_pos (dst_selfMeet_of_shared_byte hc hlt hy' hb h h')]

/-- Once the sets lie apart, the check for side effects is the first of those left (log 11). -/
theorem dutyBroken_of_setsApart {l : Layout} {s : State} (h : setsApart l s.args) :
    dutyBroken l s =
      if (dstSpans s.args ++ sampleSpans l s.args).any (spanOnSideEffect s.regions) then some .sideEffectMemory
      else if s.posted.any (fun p => spansHold (sampleSpans l s.args) p.1.toNat) then some .hostWriteNotPerformed
      else none := by
  obtain ⟨hsamples, hitself⟩ := h
  simp only [dutyBroken, hsamples, hitself, Bool.false_eq_true, if_false]

/-- Settles O19: with the sets apart, side effects are looked for before posted writes. -/
theorem otherBrokenDutiesRefused : Obligations.OtherBrokenDutiesRefused := by
  intro s l r hi hr hpass hapart
  have hc : argError s.args = none := (argError_none_iff s.args).2 hpass
  refine ⟨fun hside => exec_refused hi hr hpass ?side, fun hnone hposted => exec_refused hi hr hpass ?posted⟩
  case side => rw [dutyBroken_of_setsApart hapart, if_pos ((sets_onSideEffect_iff hc).2 hside)]
  case posted =>
    have hside : ¬ (dstSpans s.args ++ sampleSpans l s.args).any (spanOnSideEffect s.regions) = true := by
      rw [sets_onSideEffect_iff hc]
      rintro ⟨a, ha, hin, hside⟩
      exact Bool.false_ne_true ((hnone a ha hin).symm.trans hside)
    rw [dutyBroken_of_setsApart hapart, if_neg hside, if_pos (List.any_eq_true.2 hposted)]

end Sys2Proof.Machine
end

section
/-! SUPPORT and PROOF. A packed pixel in memory, and the frame of the row operations (R43, R48, R49, R85, R87 to R89). -/

namespace Sys2Proof.Machine

/-- Each byte of a word just written is read back at its address (R49). -/
theorem read_writeWord_at (m : Memory) (d : Int) (v : Word) {k : Nat} (hk : k < 4) :
    (m.writeWord d v).read (addrOf (d + (k : Int))) = byteAt v k := by
  rw [read_eq_byteAt _ _ hk, readWord_writeWord]

/-- Settles O25, by the four bytes of a packed pixel and the frame of a pixel write. -/
theorem pixelStoredLittleEndian : Obligations.PixelStoredLittleEndian := by
  intro m d p
  obtain ⟨hb, hg, hr, ha⟩ := byteAt_wordOf p.b p.g p.r p.a
  rw [← pack_eq_wordOf] at hb hg hr ha
  have hread := fun (k : Nat) (hk : k < 4) => read_writeWord_at m d (pack p) hk
  refine ⟨⟨?_, (hread 1 (by decide)).trans hg, (hread 2 (by decide)).trans hr, (hread 3 (by decide)).trans ha⟩,
    readWord_writeWord m d (pack p), fun a h0 h1 h2 h3 => ?_⟩
  · simpa using (hread 0 (by decide)).trans hb
  · rw [read_writeWord, if_neg h3, if_neg h2, if_neg h1, if_neg h0]

/-- A row operation changes memory alone, and there no byte outside the 4·DW bytes of its row (R48). -/
theorem runRow_frame {pix : Memory → Nat → Except Stop Word} {d : Int} {dw : Nat} {s t : State}
    (h : runRow pix d dw s = .next t) :
    t = { s with mem := t.mem } ∧
      ∀ a, (∀ k : Nat, k < 4 * dw → a ≠ addrOf (d + (k : Int))) → t.mem.read a = s.mem.read a := by
  obtain ⟨m, hm, rfl⟩ := runRow_next h
  exact ⟨rfl, fun a ha => rowLoop_frame dw 0 s.mem m hm a fun k _ hk => ha k (by omega)⟩

/-- Settles O30: each of the three operations runs its pixel function over the row. -/
theorem rowOperationFrame : Obligations.RowOperationFrame := by
  intro s t lv uv vv d dx dw h
  rcases h with hident | hhalf | hgeneral
  · exact runRow_frame (pix := identPixel s.regions lv uv vv) hident
  · exact runRow_frame (pix := halfPixel s.regions lv uv vv) hhalf
  · exact runRow_frame (pix := generalPixel s.regions lv uv vv dx) hgeneral

end Sys2Proof.Machine
end

section
/-! SUPPORT and PROOF. The accesses that a row operation makes: it answers only when every one of them goes through, and stops only at one that does not (R52, R64; log 3). -/

namespace Sys2Proof.Machine

/-- What a computation does is decided by accesses at the integer addresses `bs`: when it answers each of them goes
through, and when it stops it is at one of them, for the reason the platform gives there. -/
def Accesses {α : Type} (rs : List Region) (c : Except Stop α) (bs : List Int) : Prop :=
  match c with
  | .ok _ => ∀ b ∈ bs, access rs (addrOf b) = .ok ()
  | .error e => ∃ b ∈ bs, access rs (addrOf b) = .error e

theorem accesses_ok {α : Type} (rs : List Region) (v : α) : Accesses rs (.ok v) [] := fun _ hb => by cases hb

/-- One computation after another makes the accesses of both. -/
theorem Accesses.bind {α β : Type} {rs : List Region} {c : Except Stop α} {f : α → Except Stop β} {bs cs : List Int}
    (hc : Accesses rs c bs) (hf : ∀ v, Accesses rs (f v) cs) : Accesses rs (c >>= f) (bs ++ cs) := by
  cases c with
  | error e =>
    obtain ⟨b, hb, he⟩ := hc
    exact ⟨b, List.mem_append_left cs hb, he⟩
  | ok v =>
    change Accesses rs (f v) (bs ++ cs)
    have hfv := hf v
    cases hv : f v with
    | error e =>
      rw [hv] at hfv
      obtain ⟨b, hb, he⟩ := hfv
      exact ⟨b, List.mem_append_right bs hb, he⟩
    | ok w =>
      rw [hv] at hfv
      intro b hb
      rcases List.mem_append.1 hb with hb | hb
      · exact hc b hb
      · exact hfv b hb

/-- A sample fetch makes one access (R82). -/
theorem accesses_fetch (rs : List Region) (m : Memory) (vw : RowView) (k : Int) :
    Accesses rs (fetch rs m vw k) [vw.o + fetchIndex vw k] := by
  unfold fetch memRead
  cases h : access rs (addrOf (vw.o + fetchIndex vw k)) with
  | ok u => exact List.forall_mem_singleton.2 h
  | error e => exact ⟨_, List.mem_singleton_self _, h⟩

/-- The write of a pixel makes its four accesses (R48). -/
theorem accesses_accessWord (rs : List Region) (d : Int) : Accesses rs (accessWord rs d) [d, d + 1, d + 2, d + 3] := by
  unfold accessWord
  cases h0 : access rs (addrOf d) with
  | error e => exact ⟨d, by simp, h0⟩
  | ok u0 =>
    cases h1 : access rs (addrOf (d + 1)) with
    | error e => exact ⟨d + 1, by simp, h1⟩
    | ok u1 =>
      cases h2 : access rs (addrOf (d + 2)) with
      | error e => exact ⟨d + 2, by simp, h2⟩
      | ok u2 =>
        cases h3 : access rs (addrOf (d + 3)) with
        | error e => exact ⟨d + 3, by simp, h3⟩
        | ok u3 => simp [Accesses, h0, h1, h2, h3]

/-- A pixel write makes the accesses of its four bytes (R48). -/
theorem accesses_memWriteWord (rs : List Region) (m : Memory) (d : Int) (v : Word) :
    Accesses rs (memWriteWord rs m d v) [d, d + 1, d + 2, d + 3] := by
  have h := accesses_accessWord rs d
  unfold memWriteWord
  cases hw : accessWord rs d <;> rw [hw] at h <;> exact h

/-- The row loop is one column after another. -/
theorem rowLoop_succ (rs : List Region) (pix : Memory → Nat → Except Stop Word) (d : Int) (n x : Nat) (m : Memory) :
    rowLoop rs pix d (n + 1) x m =
      pix m x >>= fun v => memWriteWord rs m (d + 4 * (x : Int)) v >>= rowLoop rs pix d n (x + 1) := by
  rw [rowLoop]
  cases pix m x with
  | error e => rfl
  | ok v => cases hw : memWriteWord rs m (d + 4 * (x : Int)) v <;> simp only [Bind.bind, Except.bind, hw]

/-- The accesses of column `x` of a row: its reads, and the four bytes it writes. -/
def columnAccesses (reads : Nat → List Int) (d : Int) (x : Nat) : List Int :=
  reads x ++ [d + 4 * (x : Int), d + 4 * (x : Int) + 1, d + 4 * (x : Int) + 2, d + 4 * (x : Int) + 3]

/-- Every byte of a row is written by the column that holds it (R46). -/
theorem mem_columnAccesses_write (reads : Nat → List Int) (d : Int) (k : Nat) :
    d + (k : Int) ∈ columnAccesses reads d (k / 4) := by
  simp only [columnAccesses, List.mem_append, List.mem_cons, List.not_mem_nil, or_false]
  omega

/-- The row loop makes the accesses of its columns. -/
theorem accesses_rowLoop {rs : List Region} {pix : Memory → Nat → Except Stop Word} {reads : Nat → List Int} {d : Int}
    {dw : Nat} (hpix : ∀ m x, x < dw → Accesses rs (pix m x) (reads x)) (n : Nat) : ∀ (x : Nat) (m : Memory), x + n ≤ dw →
      Accesses rs (rowLoop rs pix d n x m) ((List.range' x n).flatMap (columnAccesses reads d)) := by
  induction n with
  | zero => intro x m _; exact accesses_ok rs m
  | succ n ih =>
    intro x m hx
    rw [rowLoop_succ, List.range'_succ, List.flatMap_cons, columnAccesses, List.append_assoc]
    exact (hpix m x (by omega)).bind fun v => (accesses_memWriteWord rs m _ v).bind fun m' => ih (x + 1) m' (by omega)

/-- Where no address has side effects, an access that does not go through is not completed there (R64). -/
theorem access_error {rs : List Region} (hside : ∀ a, kindAt rs a ≠ some .sideEffect) {a : Nat} {e : Stop}
    (h : access rs a = .error e) : e = .notCompleted a ∧ kindAt rs a = some .absent := by
  unfold access at h
  split at h
  · cases h
  · rename_i hk; cases h; exact ⟨rfl, hk⟩
  · rename_i hk; exact absurd hk (hside a)

/-- An access where the platform completes none does not go through (R64). -/
theorem access_absent {rs : List Region} {a : Nat} (h : kindAt rs a = some .absent) : access rs a ≠ .ok () := by
  unfold access; rw [h]; nofun

/-- A row operation one of whose accesses is to an absent address faults at an absent address (R64; log 3). -/
theorem runRow_stops {pix : Memory → Nat → Except Stop Word} {reads : Nat → List Int} {d : Int} {dw : Nat} {s : State}
    (hpix : ∀ m x, x < dw → Accesses s.regions (pix m x) (reads x)) (hside : ∀ a, kindAt s.regions a ≠ some .sideEffect)
    {x : Nat} (hx : x < dw) {b : Int} (hb : b ∈ columnAccesses reads d x)
    (habsent : kindAt s.regions (addrOf b) = some .absent) :
    ∃ a, runRow pix d dw s = .fault (.accessNotCompleted a) ∧ kindAt s.regions a = some .absent := by
  have hloop := accesses_rowLoop (d := d) hpix dw 0 s.mem (by omega)
  cases hrun : rowLoop s.regions pix d dw 0 s.mem with
  | ok m =>
    rw [hrun] at hloop
    have hmem : b ∈ (List.range' 0 dw).flatMap (columnAccesses reads d) :=
      List.mem_flatMap.2 ⟨x, List.mem_range'_1.2 ⟨Nat.zero_le x, by omega⟩, hb⟩
    exact absurd (hloop b hmem) (access_absent habsent)
  | error e =>
    rw [hrun] at hloop
    obtain ⟨c, -, hc⟩ := hloop
    obtain ⟨rfl, hk⟩ := access_error hside hc
    exact ⟨addrOf c, by simp only [runRow, hrun], hk⟩

/-- A pixel of ROW.IDENT makes three fetches (R87). -/
theorem accesses_identPixel (rs : List Region) (lv uv vv : RowView) (m : Memory) (x : Nat) :
    Accesses rs (identPixel rs lv uv vv m x) [lv.o + fetchIndex lv x, uv.o + fetchIndex uv (asr x 1),
      vv.o + fetchIndex vv (asr x 1)] :=
  (accesses_fetch ..).bind fun _ => (accesses_fetch ..).bind fun _ => (accesses_fetch ..).bind fun _ => accesses_ok _ _

/-- A pixel of ROW.HALF makes four fetches (R89). -/
theorem accesses_halfPixel (rs : List Region) (lv uv vv : RowView) (m : Memory) (x : Nat) :
    Accesses rs (halfPixel rs lv uv vv m x) [lv.o + fetchIndex lv (2 * (x : Int)),
      lv.o + fetchIndex lv (2 * (x : Int) + 1), uv.o + fetchIndex uv x, vv.o + fetchIndex vv x] :=
  (accesses_fetch ..).bind fun _ => (accesses_fetch ..).bind fun _ => (accesses_fetch ..).bind fun _ =>
    (accesses_fetch ..).bind fun _ => accesses_ok _ _

/-- A pixel of ROW.GENERAL makes four fetches (R88; log 28). -/
theorem accesses_generalPixel (rs : List Region) (lv uv vv : RowView) (dx : Int) (m : Memory) (x : Nat) :
    Accesses rs (generalPixel rs lv uv vv dx m x) [lv.o + fetchIndex lv (lumaIndex ((x : Int) * dx)),
      lv.o + fetchIndex lv (lumaIndex ((x : Int) * dx) + 1), uv.o + fetchIndex uv (chromaIndex ((x : Int) * dx)),
      vv.o + fetchIndex vv (chromaIndex ((x : Int) * dx))] :=
  (accesses_fetch ..).bind fun _ => (accesses_fetch ..).bind fun _ => (accesses_fetch ..).bind fun _ =>
    (accesses_fetch ..).bind fun _ => accesses_ok _ _

/-- A column of a well-formed ROW.IDENT reads where R87 says: no index needs the clamp. -/
theorem accesses_rowIdent {lv uv vv : RowView} {d : Int} {dw : Nat} (hwf : (Instr.rowIdent lv uv vv d dw).wf = true)
    (rs : List Region) (m : Memory) {x : Nat} (hx : x < dw) :
    Accesses rs (identPixel rs lv uv vv m x) (sampleReads (.rowIdent lv uv vv d dw) x) := by
  simp only [Instr.wf, Bool.and_eq_true, beq_iff_eq] at hwf
  obtain ⟨hviews, hdw⟩ := hwf
  obtain ⟨-, ⟨-, hun, hvn⟩, hlr, hur, hvr⟩ := okViews_ok hviews
  have hhalf : asr (x : Int) 1 = ((x / 2 : Nat) : Int) := rfl
  have h := accesses_identPixel rs lv uv vv m x
  rwa [hhalf, fetchIndex_inside_ltr hlr (by omega) (by omega), fetchIndex_inside_ltr hur (by omega) (by omega),
    fetchIndex_inside_ltr hvr (by omega) (by omega)] at h

/-- A column of a well-formed ROW.HALF reads where R89 says: no index needs the clamp. -/
theorem accesses_rowHalf {lv uv vv : RowView} {d : Int} {dw : Nat} (hwf : (Instr.rowHalf lv uv vv d dw).wf = true)
    (rs : List Region) (m : Memory) {x : Nat} (hx : x < dw) :
    Accesses rs (halfPixel rs lv uv vv m x) (sampleReads (.rowHalf lv uv vv d dw) x) := by
  simp only [Instr.wf, Bool.and_eq_true, beq_iff_eq] at hwf
  obtain ⟨hviews, hdw⟩ := hwf
  obtain ⟨-, ⟨-, hun, hvn⟩, hlr, hur, hvr⟩ := okViews_ok hviews
  have h := accesses_halfPixel rs lv uv vv m x
  rwa [fetchIndex_inside_ltr hlr (by omega) (by omega), fetchIndex_inside_ltr hlr (by omega) (by omega),
    fetchIndex_inside_ltr hur (by omega) (by omega), fetchIndex_inside_ltr hvr (by omega) (by omega)] at h

/-- A column of a well-formed ROW.GENERAL reads where R88 says, each index clamped into its row (R82, R83). -/
theorem accesses_rowGeneral {lv uv vv : RowView} {d : Int} {dw : Nat} {dx : Int}
    (hwf : (Instr.rowGeneral lv uv vv d dw dx).wf = true) (rs : List Region) (m : Memory) (x : Nat) :
    Accesses rs (generalPixel rs lv uv vv dx m x) (sampleReads (.rowGeneral lv uv vv d dw dx) x) := by
  simp only [Instr.wf, Bool.and_eq_true] at hwf
  obtain ⟨⟨hviews, -⟩, -⟩ := hwf
  obtain ⟨⟨⟨hl, -⟩, ⟨hu, -⟩, hv, -⟩, -⟩ := okViews_ok hviews
  have h := accesses_generalPixel rs lv uv vv dx m x
  rwa [fetchIndex_nearest lv _ hl, fetchIndex_nearest lv _ hl, fetchIndex_nearest uv _ hu,
    fetchIndex_nearest vv _ hv] at h

/-- Settles O31: the absent byte is among the accesses of some column. -/
theorem rowOperationStops : Obligations.RowOperationStops := by
  rintro s i lv uv vv d dx dw hwf hi hside ⟨b, hb, habsent⟩
  obtain ⟨x, hx, hcolumn⟩ : ∃ x, x < dw ∧ b ∈ columnAccesses (sampleReads i) d x := by
    rcases hb with ⟨k, hk, rfl⟩ | ⟨x, hx, hread⟩
    · exact ⟨k / 4, by omega, mem_columnAccesses_write (sampleReads i) d k⟩
    · exact ⟨x, hx, List.mem_append_left _ hread⟩
  rcases hi with rfl | rfl | rfl
  · exact runRow_stops (fun m _ hx => accesses_rowIdent hwf s.regions m hx) hside hx hcolumn habsent
  · exact runRow_stops (fun m _ hx => accesses_rowHalf hwf s.regions m hx) hside hx hcolumn habsent
  · exact runRow_stops (fun m x _ => accesses_rowGeneral hwf s.regions m x) hside hx hcolumn habsent

end Sys2Proof.Machine
end

section
/-! SUPPORT and PROOF. What a row operation of a command writes, and a turn of the engine and the whole run of a command (R53, R54, R93, R104, R126). -/

namespace Sys2Proof.Machine

/-- A byte of a destination row is a byte of one of its pixels (R46). -/
theorem row_byte_in_pixel {a : Args} {y b : Nat} (hb : b < 4294967296)
    (h : (rowSpan (dstRow a y) a.dstW).holds b = true) :
    ∃ x k : Nat, x < a.dstW ∧ k < 4 ∧ b = addrOf (dstPixel a y x + (k : Int)) := by
  obtain ⟨k, hk, rfl⟩ := (spanAt_holds hb (row_fits a)).1 h
  refine ⟨k / 4, k % 4, by omega, by omega, ?_⟩
  rw [dstPixel_add, Nat.div_add_mod]

/-- Where the row operation of a command's row answers, every pixel of the row is what its pixel function gives on memory
before the row (R54). -/
theorem exec_rowInstr_pixel {s t : State} {sn : Snapshot} {y x : Nat} (hc : argError sn.args = none)
    (hap : setsApart sn.layout sn.args) (hy : y < sn.args.dstH) (h : exec (rowInstr sn (normalise sn) y) s = .next t)
    (hx : x < sn.args.dstW) :
    rowFn s.regions sn (normalise sn) y s.mem x = .ok (t.mem.readWord (dstPixel sn.args y x)) := by
  rw [exec_rowInstr] at h
  obtain ⟨m, hm, rfl⟩ := runRow_next h
  exact (rowLoop_value (row_fits _) (rowFn_stable hc hap hy s.mem) _ 0 s.mem m (by omega) (fun _ _ => rfl) hm x
    (Nat.zero_le x) (by omega)).1

/-- Settles O39: both runs compute each pixel with one pixel function, which reads the sample sets only. -/
theorem rowDependsOnSamplesOnly : Obligations.RowDependsOnSamplesOnly := by
  intro s s' t t' sn y hc hap hy hregions hsamples h h' a ha hrow
  obtain ⟨x, k, hx, hk, rfl⟩ := row_byte_in_pixel ha hrow
  have hpixel := exec_rowInstr_pixel hc hap hy h hx
  rw [hregions, rowFn_samples hc hy hsamples x, exec_rowInstr_pixel hc hap hy h' hx] at hpixel
  rw [read_eq_byteAt _ _ hk, read_eq_byteAt _ _ hk, Except.ok.inj hpixel]

/-- A row produced by the engine changes no byte outside the destination set (R53). -/
theorem rowLoop_dst_frame {rs : List Region} {pix : Memory → Nat → Except Stop Word} {a : Args} {y : Nat} {m m' : Memory}
    (hy : y < a.dstH) (h : rowLoop rs pix (dstRow a y) a.dstW 0 m = .ok m') {b : Nat}
    (hb : spansHold (dstSpans a) b = false) : m'.read b = m.read b := by
  refine rowLoop_frame _ 0 m m' h b fun k _ hk hbk => ?_
  have hrow : (rowSpan (dstRow a y) a.dstW).holds b = true := hbk ▸ spanAt_holds_mem (by omega) (row_fits a)
  exact Bool.false_ne_true (hb.symm.trans (row_in_dst hy hrow))

/-- The pending rows of a command in progress are rows of its destination. -/
theorem pending_lt {s : State} {e : Engine} (hi : EngineInv s e) {y : Nat} (hy : y ∈ e.pending) :
    y < e.snap.args.dstH := by
  obtain ⟨⟨-, -, hargs, -⟩, ⟨-, hlt, -⟩, -⟩ := hi
  rw [hargs]; exact hlt y hy

/-- A state that is BUSY is not IDLE (R34). -/
theorem busy_not_idle {s : State} {e : Engine} (hb : s.phase = .busy e) : s.phase ≠ .idle := by rw [hb]; nofun

/-- Settles O40, by the ways a turn of the engine can go. -/
theorem engineTurnFrame : Obligations.EngineTurnFrame := by
  intro s t pick h hi
  rcases engineTurn_next h with ⟨rfl, -⟩ | ⟨e, hb, -, -, rfl⟩ | ⟨e, hb, -, -, rfl⟩ | ⟨e, y, m, hb, -, hy, hm, rfl⟩
  case inl => exact ⟨rfl, fun _ => rfl, fun _ _ => ⟨fun _ => rfl, fun _ _ => rfl⟩⟩
  case inr.inl =>
    exact ⟨rfl, fun hidle => absurd hidle (busy_not_idle hb), fun _ _ => ⟨fun hbusy => absurd rfl hbusy, fun _ _ => rfl⟩⟩
  case inr.inr.inl =>
    exact ⟨rfl, fun hidle => absurd hidle (busy_not_idle hb), fun _ _ => ⟨fun _ => rfl, fun _ _ => rfl⟩⟩
  case inr.inr.inr =>
    refine ⟨rfl, fun hidle => absurd hidle (busy_not_idle hb), fun e' hb' => ⟨fun _ => rfl, fun a ha => ?_⟩⟩
    cases hb.symm.trans hb'
    obtain ⟨-, hengine⟩ := (inv_busy hb).1 hi
    exact rowLoop_dst_frame (pending_lt hengine (List.mem_of_getElem? hy)) hm ha

/-- Every byte of a command's sets is ordinary memory (R52, R64). -/
def SetsOrdinary (rs : List Region) (sn : Snapshot) : Prop :=
  ∀ a, a < 4294967296 → (spansHold (dstSpans sn.args) a || spansHold (sampleSpans sn.layout sn.args) a) = true →
    kindAt rs a = none

/-- A turn picks one of the pending rows, where there is one (R56). -/
theorem pickIndex_lt (pick : Nat) {pending : List Nat} (h : pending ≠ []) : pickIndex pick pending < pending.length :=
  Nat.mod_lt pick (List.length_pos_of_ne_nil h)

/-- On ordinary memory a turn of the engine that has a pending row produces one (R93). -/
theorem engineTurn_produces {s : State} {e : Engine} (hi : EngineInv s e) (hb : s.phase = .busy e)
    (hfree : e.stuck = false) (hord : SetsOrdinary s.regions e.snap) (hpending : e.pending ≠ []) (pick : Nat) :
    ∃ m, engineTurn pick s = .next (rowDone e (pickIndex pick e.pending) { s with mem := m }) ∧
      ∀ a, spansHold (dstSpans e.snap.args) a = false → m.read a = s.mem.read a := by
  have hlt := pickIndex_lt pick hpending
  obtain ⟨-, -, hargs, -, -, hc, hap, hnorm, -⟩ := hi.1
  rw [← hargs] at hc hap
  have hy : e.pending[pickIndex pick e.pending] < e.snap.args.dstH := pending_lt hi (List.getElem_mem hlt)
  obtain ⟨m, hm⟩ := rowLoop_command_ok hc hap hy (fun a ha h => hord a ha (by rw [h, Bool.or_true]))
    (fun a ha h => hord a ha (by rw [h, Bool.true_or])) s.mem
  refine ⟨m, ?_, fun a ha => rowLoop_dst_frame hy hm ha⟩
  rw [← hnorm] at hm
  simp only [engineTurn, hb, hfree, Bool.false_eq_true, if_false, List.getElem?_eq_getElem hlt, exec_rowInstr, runRow, hm]

/-- A turn of the engine that is not stuck and has no pending row completes the command (R104). -/
theorem engineTurn_completes {s : State} {e : Engine} (hb : s.phase = .busy e) (hfree : e.stuck = false)
    (hpending : e.pending = []) (pick : Nat) : engineTurn pick s = .next (complete s) := by
  simp only [engineTurn, hb, hfree, hpending, Bool.false_eq_true, if_false, List.getElem?_nil]

/-- How a command in progress in `s` has ended in `u` (R54, R104): IDLE with DONE, the registers and OVERRUN as they were,
every destination pixel the reference pixel and every byte outside the destination set as it was. -/
structure CommandEnded (s : State) (e : Engine) (u : State) : Prop where
  idle : u.phase = .idle
  done : u.done = true
  err : u.err = .none
  overrun : u.overrun = s.overrun
  args : u.args = s.args
  cmd : u.cmd = s.cmd
  pixels : ∀ y x, y < e.snap.args.dstH → x < e.snap.args.dstW →
    u.mem.readWord (dstPixel e.snap.args y x) = refPixel e.snap e.before y x
  frame : ∀ a, spansHold (dstSpans e.snap.args) a = false → u.mem.read a = s.mem.read a

/-- A command in progress on ordinary memory ends after one turn for each pending row and one for its completion, at
whatever rows the picks choose. -/
theorem run_to_completion (picks : List Nat) : ∀ (s : State) (e : Engine), s.Inv → s.phase = .busy e → e.stuck = false →
    SetsOrdinary s.regions e.snap → picks.length = e.pending.length + 1 → s.inputs = engineTurns picks →
    ∃ u, core.run picks.length s = .next u ∧ CommandEnded s e u := by
  induction picks with
  | nil => intro s e _ _ _ _ hlen; cases hlen
  | cons pick picks ih =>
    intro s e hi hb hfree hord hlen hin
    have hstep : step s = engineTurn pick { s with inputs := engineTurns picks } := step_cons hin
    obtain ⟨hwf, hengine⟩ := (inv_busy hb).1 hi
    by_cases hpending : e.pending = []
    · have hpicks : picks = [] := by simpa [hpending] using hlen
      subst hpicks
      rw [engineTurn_completes (s := { s with inputs := engineTurns [] }) hb hfree hpending] at hstep
      have herr : s.err = .none := hengine.1.2.1
      exact ⟨_, run_succ hstep 0, rfl, rfl, herr, rfl, rfl, rfl,
        fun y x hy hx => produced_pixel_ref hengine hy (by simp [hpending]) hx, fun _ _ => rfl⟩
    · obtain ⟨m, hturn, hframe⟩ :=
        engineTurn_produces (s := { s with inputs := engineTurns picks }) hengine hb hfree hord hpending pick
      have hlen' : picks.length = (e.pending.eraseIdx (pickIndex pick e.pending)).length + 1 := by
        have hidx := pickIndex_lt pick hpending
        rw [List.length_eraseIdx_of_lt hidx]
        simp only [List.length_cons] at hlen
        omega
      obtain ⟨u, hrun, hend⟩ := ih _ { e with pending := e.pending.eraseIdx (pickIndex pick e.pending) }
        (engineTurn_keeps_inv (inv_inputs hi _) hturn) rfl hfree hord hlen' rfl
      exact ⟨u, (run_succ (hstep.trans hturn) _).trans hrun,
        { hend with frame := fun a ha => (hend.frame a ha).trans (hframe a ha) }⟩

/-- A supported command whose checks pass and whose duties are kept is accepted while IDLE (R115). -/
theorem exec_accepted {l : Layout} {r : Rotation} {s : State} (hi : s.phase = .idle) (hr : rotSupported r = true)
    (hpass : ArgsPass s.args) (hduties : DutiesKept l s) : exec (commandOf l r) s = .next (accepted l r s) := by
  have hc : argError s.args = none := (argError_none_iff s.args).2 hpass
  simp only [exec_supported hr, issueScale, hi, hc, (dutyBroken_none_iff hc).2 hduties]
  rfl

/-- Settles O45: acceptance leaves a command in progress with every row pending, which runs to its completion. -/
theorem commandRunsToCompletion : Obligations.CommandRunsToCompletion := by
  intro s l r picks hi hwf hr hpass hduties hord hlen hin
  have hc : argError s.args = none := (argError_none_iff s.args).2 hpass
  obtain ⟨u, hrun, hend⟩ := run_to_completion picks (accepted l r s) (startEngine ⟨l, r, s.args⟩ s.mem)
    (accepted_inv hwf hr hc hduties.1) rfl rfl hord (by rw [hlen]; exact congrArg (· + 1) List.length_range.symm) hin
  rw [hlen] at hrun
  exact ⟨_, u, exec_accepted hi hr hpass hduties, hrun,
    ⟨hend.idle, hend.done, hend.err, hend.overrun, hend.args, hend.cmd⟩, hend.pixels, hend.frame⟩

end Sys2Proof.Machine
end

section
/-! SUPPORT and PROOF. The host's accesses to memory: reads while IDLE and while BUSY, and the performing of a posted write (R51, R52, R57, R59, R130, R132). -/

namespace Sys2Proof.Machine

/-- A host read of ordinary memory answers each of its bytes (R58, R59). -/
theorem memRead_ordinary {a : BitVec 32} {count : Nat} {s : State}
    (h : ∀ b ∈ readAddrs a count, kindAt s.regions b = none) :
    act (.memRead a count) s =
      .next { s with busData := (readAddrs a count).map (hostByte s), nonce := s.nonce + 1 } :=
  if_pos (List.all_eq_true.2 fun b hb => by rw [h b hb]; rfl)

/-- The address of a one-byte read. -/
theorem readAddrs_one (a : BitVec 32) : readAddrs a 1 = [a.toNat] := by
  have ha : a.toNat < 4294967296 := a.isLt
  have haddr : addrOf ((a.toNat : Int) + (0 : Nat)) = a.toNat := by unfold addrOf; omega
  exact congrArg (fun b => [b]) haddr

/-- While IDLE a host read sees memory (R52). -/
theorem hostByte_idle {s : State} (h : s.phase = .idle) (a : Nat) : hostByte s a = s.mem.read a := by
  simp only [hostByte, h]

/-- Settles O47: the read's one address is ordinary memory, and memory answers while IDLE. -/
theorem idleReadReturnsMemory : Obligations.IdleReadReturnsMemory := by
  intro s a hi hk
  rw [memRead_ordinary (by rw [readAddrs_one]; exact List.forall_mem_singleton.2 hk), readAddrs_one, List.map_singleton,
    hostByte_idle hi]

/-- The addresses of a four-byte read at a destination pixel are bytes of the destination set (R46). -/
theorem readAddrs_pixel_in_dst {a : Args} {y x : Nat} {addr : BitVec 32} (hy : y < a.dstH) (hx : x < a.dstW)
    (haddr : addr.toNat = addrOf (dstPixel a y x)) :
    ∀ b ∈ readAddrs addr 4, b < 4294967296 ∧ spansHold (dstSpans a) b = true := by
  have hbyte : ∀ k : Nat, k < 4 → addrOf (dstPixel a y x + (k : Int)) < 4294967296 ∧
      spansHold (dstSpans a) (addrOf (dstPixel a y x + (k : Int))) = true :=
    fun k hk => ⟨addrOf_lt _, row_in_dst hy (pixel_in_row a hx hk)⟩
  rw [readAddrs_four haddr]
  simp only [List.forall_mem_cons]
  exact ⟨hbyte 0 (by decide), hbyte 1 (by decide), hbyte 2 (by decide), hbyte 3 (by decide), nofun⟩

/-- Settles O46: the four bytes read are those of one word, the old or the new. -/
theorem busyReadIsOldOrNew : Obligations.BusyReadIsOldOrNew := by
  intro s e y x a hi hb hy hx haddr hord
  obtain ⟨-, ⟨-, -, hargs, -, -, hc, hap, -⟩, -⟩ := (inv_busy hb).1 hi
  rw [← hargs] at hc hap
  have hdst := readAddrs_pixel_in_dst hy hx haddr
  have hbyte := fun (k : Nat) (hk : k < 4) => hostByte_pixel hb hc hap hy hx hk
  refine ⟨busyWord s e y x, ?_, busyWord_old_or_new s e y x⟩
  rw [memRead_ordinary fun b hmem => hord b (hdst b hmem).1 (hdst b hmem).2, readAddrs_four haddr]
  simp only [List.map_cons, List.map_nil, hbyte 0 (by decide), hbyte 1 (by decide), hbyte 2 (by decide),
    hbyte 3 (by decide), wordBytes]

/-- Performing the oldest posted write of the list (R57). -/
theorem memDrain_cons {s : State} {a : BitVec 32} {v : Byte} {rest : List (BitVec 32 × Byte)}
    (h : s.posted = (a, v) :: rest) : act .memDrain s = performWrite a.toNat v { s with posted := rest } := by
  show hostDrain s = _
  simp only [hostDrain, h]

/-- A write to ordinary memory is performed while IDLE (R57). -/
theorem performWrite_idle {s : State} {a : Nat} (hk : kindAt s.regions a = none) (hi : s.phase = .idle) (v : Byte) :
    performWrite a v s = .next { s with mem := s.mem.write a v } := by
  simp only [performWrite, hk, hi]

/-- A write to ordinary memory is performed while BUSY outside the command's sets, and refused in them (R130 (2)). -/
theorem performWrite_busy {s : State} {e : Engine} {a : Nat} (hk : kindAt s.regions a = none) (hb : s.phase = .busy e)
    (v : Byte) : performWrite a v s =
      if commandHolds e a then .refused .hostWriteDuringCommand else .next { s with mem := s.mem.write a v } := by
  simp only [performWrite, hk, hb]

/-- An address is in a command's sets when it is in the destination set or in a sample set. -/
theorem commandHolds_iff {e : Engine} {a : Nat} : commandHolds e a = true ↔
    spansHold (dstSpans e.snap.args) a = true ∨ spansHold (sampleSpans e.snap.layout e.snap.args) a = true :=
  Bool.or_eq_true_iff

/-- Settles O48, by the phase and whether the command's sets hold the address. -/
theorem postedWritePerformed : Obligations.PostedWritePerformed := by
  intro s a v rest hposted hk
  rw [memDrain_cons hposted]
  refine ⟨fun hfree => ⟨s.mem.write a.toNat v, ?performed, ?same, fun b hne => ?other⟩, fun e hb hin => ?refused⟩
  case performed =>
    rcases hfree with hi | ⟨e, hb, hd, hs⟩
    · exact performWrite_idle (s := { s with posted := rest }) hk hi v
    · rw [performWrite_busy (s := { s with posted := rest }) hk hb, if_neg]
      rw [commandHolds_iff, hd, hs]
      simp
  case same => rw [read_write, if_pos rfl]
  case other => rw [read_write, if_neg hne]
  case refused =>
    rw [performWrite_busy (s := { s with posted := rest }) hk hb, if_pos (commandHolds_iff.2 hin)]

end Sys2Proof.Machine
end

section
/-! SUPPORT and PROOF. What a step leaves of memory while IDLE, and of everything while the engine is stuck (R57, R64, R116, R126). -/

namespace Sys2Proof.Machine

/-- A host register write changes no memory (R39, R114, R115). -/
theorem hostRegWrite_mem {off : BitVec 6} {size : Nat} {v : Word} {s t : State} (h : hostRegWrite off size v s = .next t) :
    t.mem = s.mem := by
  rcases hostRegWrite_next h with rfl | ⟨-, -, -, -, rfl⟩ | ⟨-, -, -, -, rfl⟩ | ⟨-, -, -, ⟨-, rfl⟩ | ⟨-, -, -, -, -, -, rfl⟩⟩
  all_goals rfl

/-- A host register write while BUSY does nothing but set OVERRUN, if that (R39). -/
theorem hostRegWrite_busy {off : BitVec 6} {size : Nat} {v : Word} {s t : State} {e : Engine} (hb : s.phase = .busy e)
    (h : hostRegWrite off size v s = .next t) : t = s ∨ t = setOverrun s := by
  rcases hostRegWrite_next h with ht | ⟨-, -, -, -, ht⟩ | ⟨hi, -⟩ | ⟨hi, -⟩
  · exact .inl ht
  · exact .inr ht
  · exact absurd hi (busy_not_idle hb)
  · exact absurd hi (busy_not_idle hb)

/-- Settles O52: while IDLE the engine does nothing, and no other event but a performed host write changes memory. -/
theorem idleMemoryChangesOnlyByTheHost : Obligations.IdleMemoryChangesOnlyByTheHost := by
  intro s t h hi hne
  rcases step_block h with ⟨-, -, -, -, -, -, hmem | hdrain⟩ | ⟨rest, hin⟩ | ⟨off, size, v, rest, -, hw⟩ |
    ⟨e, hb, -⟩ | ⟨e, hb, -⟩ | ⟨e, j, m, hb, -⟩
  · exact absurd hmem hne
  · exact hdrain
  · rw [step_cons hin] at h
    cases h
    exact absurd (by simp only [resetInput_mem, resetMem, hi]) hne
  · exact absurd (hostRegWrite_mem hw) hne
  · exact absurd hi (busy_not_idle hb)
  · exact absurd hi (busy_not_idle hb)
  · exact absurd hi (busy_not_idle hb)

/-- A step with the engine stuck is the reset input, or it leaves the phase, DONE and ERR, and memory but for a performed
host write (R64, R116). -/
theorem step_stuck {s t : State} {e : Engine} (hb : s.phase = .busy e) (hstuck : e.stuck = true)
    (h : step s = .next t) : (∃ rest, s.inputs = .reset :: rest) ∨
      (t.phase = .busy e ∧ t.done = s.done ∧ t.err = s.err ∧ (t.mem = s.mem ∨ ∃ rest, s.inputs = .memDrain :: rest)) := by
  have hmoves : ∀ e', s.phase = .busy e' → e'.stuck ≠ false := by
    intro e' hb' hfree
    cases hb.symm.trans hb'
    exact Bool.false_ne_true (hfree.symm.trans hstuck)
  rcases step_block h with ⟨-, -, hphase, hdone, -, herr, hmem⟩ | hreset | ⟨off, size, v, rest, -, hw⟩ |
    ⟨e', hb', hfree, -⟩ | ⟨e', hb', hfree, -⟩ | ⟨e', j, m, hb', hfree, -⟩
  · exact .inr ⟨hphase.trans hb, hdone, herr, hmem⟩
  · exact .inl hreset
  · rcases hostRegWrite_busy (s := { s with inputs := rest }) hb hw with rfl | rfl
    · exact .inr ⟨hb, rfl, rfl, .inl rfl⟩
    · exact .inr ⟨hb, rfl, rfl, .inl rfl⟩
  · exact absurd hfree (hmoves e' hb')
  · exact absurd hfree (hmoves e' hb')
  · exact absurd hfree (hmoves e' hb')

/-- Settles O54, by a stuck turn and what a step leaves of a stuck engine. -/
theorem stuckEngineMakesNoProgress : Obligations.StuckEngineMakesNoProgress := by
  intro s e hb hstuck
  refine ⟨fun pick => engineTurn_stuck hb hstuck pick, fun t h => (step_stuck hb hstuck h).imp_right ?_⟩
  rintro ⟨hphase, hdone, herr, hmem⟩
  have hbit : (statusWord t).getLsbD 0 = true := by rw [(statusWord_fields t).1, hphase]; rfl
  exact ⟨⟨hphase, hbit, hdone, herr⟩, hmem⟩

end Sys2Proof.Machine
end

section
/-! SUPPORT and PROOF. The decoder and the encoder agree, and the sixteen words of R71 are all the words that decode (R65 to R71). -/

namespace Sys2Proof.Machine

/-- An instruction's word decodes to the instruction: a command by its fields, and an internal operation has no word
(R66, R70, R73). -/
theorem decode_of_encode {i : Instr} {w : Word} (h : encode i = some w) : decode w = .ok i := by
  cases i with
  | sat | yuvpixel | rowIdent | rowGeneral | rowHalf => cases h
  | _ => cases h; rfl

/-- The encoder gives a word for an instruction exactly when the decoder gives the instruction for the word (R66, R70). -/
theorem encode_eq_some_iff_decode {i : Instr} {w : Word} : encode i = some w ↔ decode w = .ok i := by
  refine ⟨decode_of_encode, fun h => ?_⟩
  obtain ⟨l, r, rfl, rfl⟩ := decode_command h
  exact encode_commandOf l r

/-- On a word's four bytes the byte decoder answers what the word decodes to, and leaves the bytes after them (R49, R65). -/
theorem decodeBytes_wordBytes_append (w : Word) (rest : List Byte) :
    decodeBytes (wordBytes w ++ rest) = (decode w).map fun i => (i, rest) := by
  simp only [wordBytes, List.cons_append, List.nil_append, decodeBytes, wordOf_bytes]
  cases decode w <;> rfl

/-- The byte decoder gives an instruction from a word's bytes exactly when the word decodes to it (R65, R70). -/
theorem decodeBytes_wordBytes_ok_iff {w : Word} {rest : List Byte} {i : Instr} :
    decodeBytes (wordBytes w ++ rest) = .ok (i, rest) ↔ decode w = .ok i := by
  rw [decodeBytes_wordBytes_append]
  cases decode w <;> simp [Except.map]

/-- Settles O2: the bytes decode as their word does, and the decoder and the encoder agree on words. -/
theorem decodeBytesIffEncode : Obligations.DecodeBytesIffEncode :=
  fun _ _ _ => encode_eq_some_iff_decode.trans decodeBytes_wordBytes_ok_iff.symm

/-- Every command stands in the table of R71 with its word. -/
theorem command_mem_commandTable (l : Layout) (r : Rotation) : (commandWord l r, commandOf l r) ∈ commandTable := by
  cases l <;> cases r <;> decide

/-- Every word of the table of R71 decodes to the command beside it. -/
theorem decode_of_mem_commandTable : ∀ p ∈ commandTable, decode p.1 = .ok p.2 := by
  decide

/-- The first eight words of the table of R71 are those of the supported rotations. -/
theorem command_mem_take_eight_iff (l : Layout) (r : Rotation) :
    (commandWord l r, commandOf l r) ∈ commandTable.take 8 ↔ rotSupported r = true := by
  cases l <;> cases r <;> decide

/-- Settles O1: what decodes is a command's own word, and the table holds each command with its word. -/
theorem sixteenWordsDecode : Obligations.SixteenWordsDecode := by
  refine ⟨fun w i => ⟨fun h => ?_, decode_of_mem_commandTable (w, i)⟩, command_mem_take_eight_iff⟩
  obtain ⟨l, r, rfl, rfl⟩ := decode_command h
  exact command_mem_commandTable l r

/-- A word with a bit of RSVD set is Illegal for that reason, whatever its OPC (R69). -/
theorem decode_reservedBits {w : Word} (h : rsvdField w ≠ 0) : decode w = .error .reservedBits := if_pos h

/-- A word with RSVD zero and an OPC that names no layout is Illegal for its OPC (R67). -/
theorem decode_reservedOpc {w : Word} (hrsvd : rsvdField w = 0) (hopc : layoutOfOpc (opcField w) = none) :
    decode w = .error .reservedOpc := by
  rw [decode, if_neg (not_not.2 hrsvd), hopc]

/-- Settles O3: four words are those of their commands; two have a reserved OPC and one a bit of RSVD. -/
theorem sampleWordsDecode : Obligations.SampleWordsDecode :=
  ⟨⟨decode_commandWord .l420 .rot0, decode_commandWord .l422 .mir180, decode_commandWord .l420 .rot270,
      decode_commandWord .l422 .rot90⟩,
    decode_reservedOpc rfl rfl, decode_reservedBits (by decide), decode_reservedOpc rfl rfl⟩

end Sys2Proof.Machine
end

section
/-! SUPPORT and PROOF. The saturation table and SAT as the byte clamp `channel`, and that the clamp is monotone (R77 to R80). -/

namespace Sys2Proof.Machine

/-- With its bounds in order, the clamp of R9 is the nearest integer between them. -/
theorem clamp_eq_max_min {lo hi : Int} (h : lo ≤ hi) (v : Int) : clamp v lo hi = max lo (min v hi) := by
  unfold clamp
  split_ifs <;> omega

/-- A table entry is its address less 128, clamped to a byte (R77). -/
theorem rom_eq_channel (j : Nat) : rom j = channel ((j : Int) - 128) :=
  congrArg (BitVec.ofInt 8) (clamp_eq_max_min (by decide) _)

theorem channel_of_nonpos {v : Int} (h : v ≤ 0) : channel v = 0 := by
  rw [channel, max_eq_left (by omega)]
  rfl

theorem channel_of_ge {v : Int} (h : 255 ≤ v) : channel v = 255 := by
  rw [channel, min_eq_right h]
  rfl

theorem channel_natCast {k : Nat} (h : k ≤ 255) : channel k = BitVec.ofNat 8 k := by
  rw [channel, min_eq_left (by omega), max_eq_right (by omega), BitVec.ofInt_natCast]

/-- Settles O21: each range of addresses is a case of the clamp. -/
theorem romContents : Obligations.RomContents := by
  refine ⟨fun j hj => ?low, fun k hk => ?ramp, fun j hj _ => ?high⟩
  case low => rw [rom_eq_channel, channel_of_nonpos (by omega)]
  case ramp =>
    have hidx : ((128 + k : Nat) : Int) - 128 = k := by omega
    rw [rom_eq_channel, hidx, channel_natCast hk]
  case high => rw [rom_eq_channel, channel_of_ge (by omega)]

/-- The table is constant beyond its extent, so saturating the index to -128..383 first changes nothing (R78). -/
theorem rom_saturatedIndex (i : Int) : rom (max (-128) (min i 383) + 128).toNat = channel i := by
  rw [rom_eq_channel, Int.toNat_of_nonneg (by omega), add_sub_cancel_right, channel, channel]
  congr 1
  omega

/-- SAT clamps its index to a byte (R78). -/
theorem sat_eq_channel (i : Int) : sat i = channel i := by
  rw [sat, clamp_eq_max_min (by decide), rom_saturatedIndex]

/-- SAT executed alone changes its result only (R78). -/
theorem exec_sat (i : Int) (s : State) : exec (.sat i) s = .next { s with satOut := sat i } := rfl

/-- Settles O22, by SAT as the byte clamp and the table read at the saturated index. -/
theorem satClampsEveryIndex : Obligations.SatClampsEveryIndex :=
  fun s i => ⟨by rw [exec_sat, sat_eq_channel], (rom_saturatedIndex i).symm⟩

/-- SAT keeps the order of its indices (R80). -/
theorem sat_monotone : Monotone fun i => (sat i).toNat := by
  intro i j hij
  simp only [sat_toNat]
  exact Int.toNat_le_toNat (max_le_max_left 0 (min_le_min_right 255 hij))

/-- clip keeps the order of its values: the floor by 256 does, and SAT does (R79, R80). -/
theorem clip_monotone : Monotone fun v => (clip v).toNat :=
  fun _ _ hvw => sat_monotone (Int.ediv_le_ediv (by decide) hvw)

/-- Settles O23, by the monotonicity of SAT and clip and the end values of the byte clamp. -/
theorem saturationMonotone : Obligations.SaturationMonotone := by
  refine ⟨fun i => ⟨sat_monotone (Int.le_add_one le_rfl), fun hi => ?zero, fun hi => ?top⟩,
    fun v => clip_monotone (Int.le_add_one le_rfl)⟩
  case zero => rw [sat_eq_channel, channel_of_nonpos hi]
  case top => rw [sat_eq_channel, channel_of_ge hi]

end Sys2Proof.Machine
end

section
/-! SUPPORT and PROOF. The colour transform, the luma blend and the luma average as numbers (R84, R86, R89). -/

namespace Sys2Proof.Machine

/-- clip is the byte clamp of the floor by 256 (R79). -/
theorem clip_eq_channel (v : Int) : clip v = channel (v / 256) := sat_eq_channel (v / 256)

/-- YUVPIXEL executed alone changes its result only (R84). -/
theorem exec_yuvpixel (y u v : Byte) (s : State) :
    exec (.yuvpixel y u v) s = .next { s with pixelOut := yuvPixel y u v } := rfl

/-- The channels of YUVPIXEL with the two biases of 128 taken together (R84). -/
theorem yuvPixel_eq_channels (y u v : Byte) :
    yuvPixel y u v =
      { b := channel ((298 * ((y.toNat : Int) - 16) + 516 * ((u.toNat : Int) - 128) + 256) / 256)
        g := channel ((298 * ((y.toNat : Int) - 16) - 100 * ((u.toNat : Int) - 128) - 208 * ((v.toNat : Int) - 128) + 256)
          / 256)
        r := channel ((298 * ((y.toNat : Int) - 16) + 409 * ((v.toNat : Int) - 128) + 256) / 256)
        a := 255 } := by
  have hy : lumaTerm y = 298 * ((y.toNat : Int) - 16) + 128 := by rw [lumaTerm, Int.mul_comm]; rfl
  have hb : blueTerm u = 516 * ((u.toNat : Int) - 128) + 128 := rfl
  have hg : greenTerm u v = -100 * ((u.toNat : Int) - 128) + -208 * ((v.toNat : Int) - 128) + 128 := rfl
  have hr : redTerm v = 409 * ((v.toNat : Int) - 128) + 128 := rfl
  rw [yuvPixel, Pixel.mk.injEq, clip_eq_channel, clip_eq_channel, clip_eq_channel, hy, hb, hg, hr]
  refine ⟨?_, ?_, ?_, rfl⟩ <;> congr 2 <;> ring

/-- Settles O24, by the channels as clamped floors. -/
theorem yuvpixelComputesChannels : Obligations.YuvpixelComputesChannels := by
  intro s y u v
  rw [exec_yuvpixel, yuvPixel_eq_channels]

/-- The blend's sum of weighted samples, in natural numbers (R86). -/
theorem blend_eq_ofNat {f : Nat} (hf : f ≤ 4) (y0 y1 : Byte) :
    blend f y0 y1 = BitVec.ofNat 8 (((4 - f) * y0.toNat + f * y1.toNat) / 4) := by
  have hsum : weightCurrent f * sampleInt y0 + weightNext f * sampleInt y1 =
      (((4 - f) * y0.toNat + f * y1.toNat : Nat) : Int) := by
    simp only [weightCurrent, weightNext, sampleInt]
    push_cast [hf]
    rfl
  rw [blend, hsum, ← BitVec.ofInt_natCast]
  rfl

/-- The weighted mean of two samples is a byte (R86). -/
theorem weightedMean_lt {f : Nat} (hf : f ≤ 4) (y0 y1 : Byte) :
    ((4 - f) * y0.toNat + f * y1.toNat) / 4 < 2 ^ 8 := by
  have h0 : (4 - f) * y0.toNat ≤ (4 - f) * 255 := Nat.mul_le_mul_left _ (Nat.le_of_lt_succ y0.isLt)
  have h1 : f * y1.toNat ≤ f * 255 := Nat.mul_le_mul_left _ (Nat.le_of_lt_succ y1.isLt)
  omega

/-- Phase 0 leaves the current sample (R86). -/
theorem blend_zero (y0 y1 : Byte) : blend 0 y0 y1 = y0 := by
  have hmean : ((4 - 0) * y0.toNat + 0 * y1.toNat) / 4 = y0.toNat := by omega
  rw [blend_eq_ofNat (Nat.zero_le 4), hmean, BitVec.ofNat_toNat, BitVec.setWidth_eq]

/-- Settles O26: the weighted mean is a byte, so reducing it to eight bits loses nothing. -/
theorem blendIsWeightedFloor : Obligations.BlendIsWeightedFloor := by
  intro f y0 y1 hf
  refine ⟨?_, blend_zero y0 y1⟩
  rw [blend_eq_ofNat hf.le, BitVec.toNat_ofNat, Nat.mod_eq_of_lt (weightedMean_lt hf.le y0 y1)]

/-- The floored average of two samples, in natural numbers (R89). -/
theorem average_eq_ofNat (y0 y1 : Byte) :
    BitVec.ofInt 8 (asr (sampleInt y0 + sampleInt y1) 1) = BitVec.ofNat 8 ((y0.toNat + y1.toNat) / 2) := by
  rw [← BitVec.ofInt_natCast]
  rfl

end Sys2Proof.Machine
end

section
/-! SUPPORT and PROOF. What each row operation writes on ordinary memory, and ROW.IDENT as ROW.GENERAL at the step 16 (R81 to R83, R87 to R89). -/

namespace Sys2Proof.Machine

/-- What well-formed operands of ROW.IDENT give: usable views, a row that fits, and at its columns indices that need no
clamp (R81, R87). -/
theorem rowIdent_wf {lv uv vv : RowView} {d : Int} {dw : Nat} (h : (Instr.rowIdent lv uv vv d dw).wf = true) :
    (ViewOk lv ∧ ViewOk uv ∧ ViewOk vv) ∧ 4 * dw ≤ 4294967296 ∧
      ∀ x : Nat, x < dw → fetchIndex lv x = x ∧ fetchIndex uv ((x / 2 : Nat) : Int) = ((x / 2 : Nat) : Int) ∧
        fetchIndex vv ((x / 2 : Nat) : Int) = ((x / 2 : Nat) : Int) := by
  simp only [Instr.wf, Bool.and_eq_true, beq_iff_eq] at h
  obtain ⟨hviews, hdw⟩ := h
  obtain ⟨hok, ⟨hln, hun, hvn⟩, hlr, hur, hvr⟩ := okViews_ok hviews
  exact ⟨hok, by omega, fun x hx => ⟨fetchIndex_inside_ltr hlr (by omega) (by omega),
    fetchIndex_inside_ltr hur (by omega) (by omega), fetchIndex_inside_ltr hvr (by omega) (by omega)⟩⟩

/-- What well-formed operands of ROW.HALF give: usable views, a row that fits, and at its columns indices that need no
clamp (R81, R89). -/
theorem rowHalf_wf {lv uv vv : RowView} {d : Int} {dw : Nat} (h : (Instr.rowHalf lv uv vv d dw).wf = true) :
    (ViewOk lv ∧ ViewOk uv ∧ ViewOk vv) ∧ 4 * dw ≤ 4294967296 ∧
      ∀ x : Nat, x < dw → fetchIndex lv (2 * (x : Int)) = 2 * (x : Int) ∧
        fetchIndex lv (2 * (x : Int) + 1) = 2 * (x : Int) + 1 ∧ fetchIndex uv x = x ∧ fetchIndex vv x = x := by
  simp only [Instr.wf, Bool.and_eq_true, beq_iff_eq] at h
  obtain ⟨hviews, hdw⟩ := h
  obtain ⟨hok, ⟨hln, hun, hvn⟩, hlr, hur, hvr⟩ := okViews_ok hviews
  exact ⟨hok, by omega, fun x hx => ⟨fetchIndex_inside_ltr hlr (by omega) (by omega),
    fetchIndex_inside_ltr hlr (by omega) (by omega), fetchIndex_inside_ltr hur (by omega) (by omega),
    fetchIndex_inside_ltr hvr (by omega) (by omega)⟩⟩

/-- What well-formed operands of ROW.GENERAL give: usable views and a row that fits (R81, R88). -/
theorem rowGeneral_wf {lv uv vv : RowView} {d : Int} {dw : Nat} {dx : Int}
    (h : (Instr.rowGeneral lv uv vv d dw dx).wf = true) :
    (ViewOk lv ∧ ViewOk uv ∧ ViewOk vv) ∧ 4 * dw ≤ 4294967296 := by
  simp only [Instr.wf, okDim, Bool.and_eq_true, decide_eq_true_eq] at h
  obtain ⟨⟨hviews, -, hdw⟩, -⟩ := h
  exact ⟨(okViews_ok hviews).1, by omega⟩

/-- Settles O27: the row holds its pixels, and none of their indices needs the clamp. -/
theorem rowIdentWritesPixels : Obligations.RowIdentWritesPixels := by
  intro s lv uv vv d dw hwf hready
  obtain ⟨⟨hl, hu, hv⟩, hdw, hindex⟩ := rowIdent_wf hwf
  obtain ⟨ol, ou, ov, -⟩ := hready.1
  obtain ⟨m, hrun, hpixels, hframe⟩ := runRow_writes hdw hready (identPixel_readsViews hl hu hv)
    (identPixel_ok hl hu hv ol ou ov s.mem)
  refine ⟨m, hrun, fun x hx => ?_, hframe⟩
  obtain ⟨hix, hiu, hiv⟩ := hindex x hx
  have hhalf : asr (x : Int) 1 = ((x / 2 : Nat) : Int) := rfl
  rw [hpixels x hx, hhalf, hix, hiu, hiv]

/-- Settles O28: the row holds its pixels, and none of their indices needs the clamp. -/
theorem rowHalfWritesPixels : Obligations.RowHalfWritesPixels := by
  intro s lv uv vv d dw hwf hready
  obtain ⟨⟨hl, hu, hv⟩, hdw, hindex⟩ := rowHalf_wf hwf
  obtain ⟨ol, ou, ov, -⟩ := hready.1
  obtain ⟨m, hrun, hpixels, hframe⟩ := runRow_writes hdw hready (halfPixel_readsViews hl hu hv)
    (halfPixel_ok hl hu hv ol ou ov s.mem)
  refine ⟨m, hrun, fun x hx => ?_, hframe⟩
  obtain ⟨hi0, hi1, hiu, hiv⟩ := hindex x hx
  rw [hpixels x hx, average_eq_ofNat, hi0, hi1, hiu, hiv]

/-- The phase is two bits (R88). -/
theorem phaseOf_lt (p : Int) : phaseOf p < 4 := by unfold phaseOf; omega

/-- Settles O29: the row holds its pixels, FETCH takes the nearest index of each row, and the shifts of R88 are floors by
definition (R9). -/
theorem rowGeneralWritesPixels : Obligations.RowGeneralWritesPixels := by
  intro s lv uv vv d dw dx hwf hready
  obtain ⟨⟨hl, hu, hv⟩, hdw⟩ := rowGeneral_wf hwf
  obtain ⟨ol, ou, ov, -⟩ := hready.1
  obtain ⟨m, hrun, hpixels, hframe⟩ := runRow_writes hdw hready (generalPixel_readsViews dx hl hu hv)
    (generalPixel_ok hl hu hv ol ou ov dx s.mem)
  refine ⟨m, hrun, fun x hx => ?_, hframe⟩
  rw [hpixels x hx, blend_eq_ofNat (phaseOf_lt _).le, fetchIndex_nearest lv _ hl.1, fetchIndex_nearest lv _ hl.1,
    fetchIndex_nearest uv _ hu.1, fetchIndex_nearest vv _ hv.1]
  rfl

/-- At a position 16·x the luma index is x, the phase is 0 and the chroma index is ⌊x/2⌋ (R87). -/
theorem position_sixteen (x : Nat) :
    lumaIndex ((x : Int) * 16) = x ∧ phaseOf ((x : Int) * 16) = 0 ∧ chromaIndex ((x : Int) * 16) = asr x 1 := by
  simp only [lumaIndex, phaseOf, chromaIndex, asr]
  omega

/-- Settles O32: the general path stands on the same samples, and phase 0 drops the next one. -/
theorem identIsGeneralAtSixteen : Obligations.IdentIsGeneralAtSixteen := by
  intro rs lv uv vv m x hl hu hv ol ou ov
  obtain ⟨hluma, hphase, hchroma⟩ := position_sixteen x
  rw [identPixel_ok hl hu hv ol ou ov, generalPixel_ok hl hu hv ol ou ov, hluma, hphase, hchroma, blend_zero]

end Sys2Proof.Machine
end

section
/-! SUPPORT and PROOF. ROW.HALF as the general path two phases past the even luma samples (R88 to R90). -/

namespace Sys2Proof.Machine

/-- Within the luma sample that begins at position 32·x, the luma index is 2·x, the chroma index is x and the phase is the
offset's quarter (R83, R88). -/
theorem position_thirtyTwo (x : Nat) {r : Nat} (hr : r < 16) :
    lumaIndex (32 * (x : Int) + r) = 2 * (x : Int) ∧ phaseOf (32 * (x : Int) + r) = r / 4 ∧
      chromaIndex (32 * (x : Int) + r) = x := by
  simp only [lumaIndex, phaseOf, chromaIndex, asr]
  omega

/-- Phase 2 is the floored average of ROW.HALF (R86, R89). -/
theorem blend_two (y0 y1 : Byte) : blend 2 y0 y1 = BitVec.ofInt 8 (asr (sampleInt y0 + sampleInt y1) 1) := by
  have hmean : ((4 - 2) * y0.toNat + 2 * y1.toNat) / 4 = (y0.toNat + y1.toNat) / 2 := by omega
  rw [blend_eq_ofNat (by decide), hmean, average_eq_ofNat]

/-- The average of two samples of which the second equals the first or exceeds it by 1 is floored to the first (R90). -/
theorem blend_two_eq_left {y0 y1 : Byte} (h : y1 = y0 ∨ y1.toNat = y0.toNat + 1) : blend 2 y0 y1 = y0 := by
  have hmean : (y0.toNat + y1.toNat) / 2 = y0.toNat := by
    obtain rfl | h := h <;> omega
  rw [blend_two, average_eq_ofNat, hmean, BitVec.ofNat_toNat, BitVec.setWidth_eq]

/-- The general path on the column's own luma and chroma indices, at any position within its even luma sample (R88). -/
theorem generalPixelAt_thirtyTwo (rs : List Region) (lv uv vv : RowView) (m : Memory) (x : Nat) {r : Nat} (hr : r < 16) :
    generalPixelAt rs lv uv vv m (32 * (x : Int) + r) = (do
      let y0 ← fetch rs m lv (2 * (x : Int))
      let y1 ← fetch rs m lv (2 * (x : Int) + 1)
      let u ← fetch rs m uv x
      let v ← fetch rs m vv x
      pure (pack (yuvPixel (blend (r / 4) y0 y1) u v))) := by
  obtain ⟨hluma, hphase, hchroma⟩ := position_thirtyTwo x hr
  rw [generalPixelAt, hluma, hphase, hchroma]

/-- A pixel of ROW.HALF is the general path's at position 32·x + 8, whatever the reads answer (R90). -/
theorem halfPixel_eq_generalPixelAt (rs : List Region) (lv uv vv : RowView) (m : Memory) (x : Nat) :
    halfPixel rs lv uv vv m x = generalPixelAt rs lv uv vv m (32 * (x : Int) + 8) := by
  have hgeneral := generalPixelAt_thirtyTwo rs lv uv vv m x (r := 8) (by decide)
  simp only [Nat.reduceDiv, blend_two] at hgeneral
  exact hgeneral.symm

/-- Where the floored average is the even sample, which phase 0 takes, ROW.HALF and the step 32 from position 0 agree
(R90). -/
theorem halfPixel_eq_generalPixel {rs : List Region} {lv uv vv : RowView} {m : Memory} {x : Nat} {y0 y1 : Byte}
    (h0 : fetch rs m lv (2 * (x : Int)) = .ok y0) (h1 : fetch rs m lv (2 * (x : Int) + 1) = .ok y1)
    (hstep : y1 = y0 ∨ y1.toNat = y0.toNat + 1) : halfPixel rs lv uv vv m x = generalPixel rs lv uv vv 32 m x := by
  have hgeneral := generalPixelAt_thirtyTwo rs lv uv vv m x (r := 0) (by decide)
  have hposition : (x : Int) * 32 = 32 * (x : Int) + (0 : Nat) := by omega
  have hblend : BitVec.ofInt 8 (asr (sampleInt y0 + sampleInt y1) 1) = blend (0 / 4) y0 y1 := by
    rw [← blend_two, blend_two_eq_left hstep, Nat.zero_div, blend_zero]
  rw [generalPixel, hposition, hgeneral, halfPixel, h0, h1]
  simp only [bind, Except.bind, hblend]

/-- Settles O33, by the position 32·x + 8 and the blend at phase 2. -/
theorem halfIsGeneralFromEight : Obligations.HalfIsGeneralFromEight := by
  refine ⟨fun s lv uv vv d dw => ?row, fun rs lv uv vv m x => ⟨halfPixel_eq_generalPixelAt rs lv uv vv m x,
    fun _ _ h0 h1 => halfPixel_eq_generalPixel h0 h1⟩, fun x y0 y1 => ⟨position_thirtyTwo x (r := 8) (by decide), ?average⟩⟩
  case row =>
    simp only [← halfPixel_eq_generalPixelAt]
    rfl
  case average =>
    rw [(blendIsWeightedFloor 2 y0 y1 (by decide)).1]
    omega

end Sys2Proof.Machine
end

section
/-! SUPPORT and PROOF. The acceptance of a supported command, and the turns of the engine that produce a row, get stuck or complete (R64, R93, R102, R104, R115; logs 3, 4 and 7). -/

namespace Sys2Proof.Machine

/-- Settles O17: the checks find no error and the duties none broken. -/
theorem supportedCommandAccepted : Obligations.SupportedCommandAccepted := fun _ _ _ hi hr hpass hduties =>
  exec_accepted hi hr hpass hduties

/-- A step whose event is a turn of the engine, listed or taken because no event is listed, is that turn on the state
without the event (R120; log 7). -/
theorem step_turn {s u : State} {pick : Nat}
    (hin : s.inputs = .engine pick :: u.inputs ∨ (s.inputs = [] ∧ u.inputs = [] ∧ pick = 0))
    (hu : u = { s with inputs := u.inputs }) : step s = engineTurn pick u := by
  rcases hin with hlisted | ⟨hs, hnone, rfl⟩
  · rw [step_cons hlisted, ← hu]; rfl
  · have hsame : u = s := by rw [hu, hnone, ← hs]
    rw [step_nil hs, hsame]

section PickedRow
variable {s : State} {e : Engine} {pick y : Nat} (hb : s.phase = .busy e) (hfree : e.stuck = false)
  (hpicked : e.pending[pickIndex pick e.pending]? = some y)
include hb hfree hpicked

/-- A turn whose row operation answers produces the picked row (R93). -/
theorem engineTurn_row_next {t : State} (h : exec (rowInstr e.snap e.norm y) s = .next t) :
    engineTurn pick s = .next (rowDone e (pickIndex pick e.pending) t) := by
  simp only [engineTurn, hb, hfree, hpicked, h, Bool.false_eq_true, if_false]

/-- A turn whose row operation faults leaves the engine stuck (R64, R116). -/
theorem engineTurn_row_fault {f : Fault} (h : exec (rowInstr e.snap e.norm y) s = .fault f) :
    engineTurn pick s = .next (engineStuck e s) := by
  simp only [engineTurn, hb, hfree, hpicked, h, Bool.false_eq_true, if_false]

/-- A turn whose row operation refuses is refused (R52). -/
theorem engineTurn_row_refused {why : Refusal} (h : exec (rowInstr e.snap e.norm y) s = .refused why) :
    engineTurn pick s = .refused why := by
  simp only [engineTurn, hb, hfree, hpicked, h, Bool.false_eq_true, if_false]

end PickedRow

/-- Settles O13: the step is a turn at the picked row, which goes as the row operation does. -/
theorem stepRunsTheRowOperation : Obligations.StepRunsTheRowOperation := by
  intro s u e pick y hin hu hb hfree hpicked
  have hbu : u.phase = .busy e := by rw [hu]; exact hb
  rw [step_turn hin hu]
  exact ⟨fun _ h => engineTurn_row_next hbu hfree hpicked h, fun _ h => engineTurn_row_fault hbu hfree hpicked h,
    fun _ h => engineTurn_row_refused hbu hfree hpicked h⟩

/-- Settles O41: with no row pending the turn is the completion. -/
theorem completionStep : Obligations.CompletionStep := fun _ _ pick hb hpending hfree =>
  engineTurn_completes hb hfree hpending pick

end Sys2Proof.Machine
end

section
/-! SUPPORT and PROOF. The geometry of a destination row: its source rows, its step and positions, and the row operation the dispatcher forms for it (R98 to R103). -/

namespace Sys2Proof.Machine

/-- Settles O34: the source row is a floor, below H as y is below DH. -/
theorem sourceRowsExist : Obligations.SourceRowsExist := by
  intro l h dh y hh hy
  have hrow : sourceRow h dh y < h := sourceRow_lt hh hy
  refine ⟨hrow, chromaRow_lt hrow, Nat.div_mul_le_self (y * h) dh, ?_⟩
  rw [sourceRow, Nat.mul_comm _ dh]
  exact Nat.lt_mul_div_succ (y * h) (by omega)

/-- The step of a left-to-right row is the floor of 16·W / DW (R103). -/
theorem stepOf_natCast (w dw : Nat) : stepOf w dw = ((16 * w / dw : Nat) : Int) := by
  rw [stepOf, tdiv, Int.ofNat_tdiv]; rfl

/-- Every position of a left-to-right row lies before the end of the source row (R103). -/
theorem position_lt {w dw x : Nat} (hw : 1 ≤ w) (hx : x < dw) : x * (16 * w / dw) < 16 * w := by
  rcases Nat.eq_zero_or_pos (16 * w / dw) with hzero | hpos
  · rw [hzero]; omega
  · calc x * (16 * w / dw) < dw * (16 * w / dw) := Nat.mul_lt_mul_of_pos_right hx hpos
      _ ≤ 16 * w := Nat.mul_div_le (16 * w) dw

/-- Settles O35: both steps have the magnitude of the floor of 16·W / DW. -/
theorem stepAndPositionRange : Obligations.StepAndPositionRange := by
  intro w dw x hw hw' hdw hx
  have hneg : stepOf (-(w : Int)) dw = -stepOf w dw := stepOf_neg w dw
  have hposition : ((x : Int) * stepOf w dw).natAbs < 16 * w := by
    rw [stepOf_natCast, ← Int.natCast_mul, Int.natAbs_natCast]
    exact position_lt hw hx
  refine ⟨hneg, ?bound, ?nonneg, ?zero, hposition, ?_⟩
  case bound =>
    have hle : 16 * w / dw ≤ 16 * w := Nat.div_le_self _ _
    rw [stepOf_natCast, Int.natAbs_natCast]
    omega
  case nonneg => rw [stepOf_natCast]; exact Int.natCast_nonneg _
  case zero =>
    rw [stepOf_natCast, Int.natCast_eq_zero, Nat.div_eq_zero_iff]
    omega
  rwa [hneg, Int.mul_neg, Int.natAbs_neg]

/-- The normalised width of a left-to-right command (R96). -/
theorem normalise_wN_ltr {sn : Snapshot} (h : rotRtl sn.rotation = false) : (normalise sn).wN = sn.args.srcW := by
  simp only [normalise, h, Bool.false_eq_true, if_false]

/-- The normalised width of a right-to-left command (R96). -/
theorem normalise_wN_rtl {sn : Snapshot} (h : rotRtl sn.rotation = true) : (normalise sn).wN = -(sn.args.srcW : Int) := by
  simp only [normalise, h, if_true]

/-- ROW.IDENT at the normalised width (R102). -/
theorem rowInstr_ident {sn : Snapshot} {g : Normalised} (y : Nat) (h : (sn.args.dstW : Int) = g.wN) :
    rowInstr sn g y = .rowIdent (lumaView sn g y) (uView sn g y) (vView sn g y) (dstRow sn.args y) sn.args.dstW :=
  if_pos h

/-- ROW.HALF at half the normalised width (R102). -/
theorem rowInstr_half {sn : Snapshot} {g : Normalised} (y : Nat) (h1 : (sn.args.dstW : Int) ≠ g.wN)
    (h2 : 2 * (sn.args.dstW : Int) = g.wN) :
    rowInstr sn g y = .rowHalf (lumaView sn g y) (uView sn g y) (vView sn g y) (dstRow sn.args y) sn.args.dstW :=
  (if_neg h1).trans (if_pos h2)

/-- ROW.GENERAL, with the step of R103, at every other width (R102). -/
theorem rowInstr_general {sn : Snapshot} {g : Normalised} (y : Nat) (h1 : (sn.args.dstW : Int) ≠ g.wN)
    (h2 : 2 * (sn.args.dstW : Int) ≠ g.wN) :
    rowInstr sn g y = .rowGeneral (lumaView sn g y) (uView sn g y) (vView sn g y) (dstRow sn.args y) sn.args.dstW
      (stepOf g.wN sn.args.dstW) :=
  (if_neg h1).trans (if_neg h2)

/-- Settles O36: the sign of the normalised width is the reading direction, and a width is never negative. -/
theorem rowDispatch : Obligations.RowDispatch := by
  intro sn y hdw
  refine ⟨fun hr hident => ?ident, fun hr hhalf => ?half, fun hr hident hhalf => ?ltr, fun hr => ?rtl⟩
  case ident => exact rowInstr_ident y (by rw [normalise_wN_ltr hr, hident])
  case half =>
    have hw := normalise_wN_ltr hr
    exact rowInstr_half y (by omega) (by omega)
  case ltr =>
    have hw := normalise_wN_ltr hr
    rw [rowInstr_general y (by omega) (by omega), hw]; rfl
  case rtl =>
    have hw := normalise_wN_rtl hr
    rw [rowInstr_general y (by omega) (by omega), hw, stepOf_neg]

/-- A dimension that is not zero and fits a 16-bit field is a dimension of the block (R7, R111). -/
theorem okDim_of_lt {n : Nat} (hpos : 1 ≤ n) (hlt : n < 65536) : okDim n = true := by
  simp only [okDim, Bool.and_eq_true, decide_eq_true_eq]
  omega

/-- The views of a command's row have its source's dimensions and direction (R94, R100, R111). -/
theorem okViews_of_checks {sn : Snapshot} (hc : argError sn.args = none) (g : Normalised) (y : Nat) :
    okViews (rotRtl sn.rotation) (lumaView sn g y) (uView sn g y) (vView sn g y) = true := by
  have hdim : okDim sn.args.srcW = true := okDim_of_lt (dims_pos hc).1 (srcW_lt sn.args)
  simp [okViews, lumaView, uView, vView, chromaW, hdim]

/-- A positive normalised width is a left-to-right command's (R96). -/
theorem ltr_of_wN_pos {sn : Snapshot} (h : 0 < (normalise sn).wN) : rotRtl sn.rotation = false := by
  by_contra hr
  rw [normalise_wN_rtl (by simpa using hr)] at h
  omega

/-- Settles O37: each operation's condition on the widths is the dispatcher's, and the views are those of the command. -/
theorem rowOperationsWellFormed : Obligations.RowOperationsWellFormed := by
  intro sn y hc _
  obtain ⟨-, -, hdw, -⟩ := dims_pos hc
  have hviews := okViews_of_checks hc (normalise sn) y
  by_cases hident : (sn.args.dstW : Int) = (normalise sn).wN
  · have hr : rotRtl sn.rotation = false := ltr_of_wN_pos (by omega)
    rw [rowInstr_ident y hident]
    rw [hr] at hviews
    rw [normalise_wN_ltr hr] at hident
    have hwidth : sn.args.dstW = (lumaView sn (normalise sn) y).n := by exact_mod_cast hident
    simp only [Instr.wf, hviews, hwidth, beq_self_eq_true, Bool.and_self]
  by_cases hhalf : 2 * (sn.args.dstW : Int) = (normalise sn).wN
  · have hr : rotRtl sn.rotation = false := ltr_of_wN_pos (by omega)
    rw [rowInstr_half y hident hhalf]
    rw [hr] at hviews
    rw [normalise_wN_ltr hr] at hhalf
    have hwidth : 2 * sn.args.dstW = (lumaView sn (normalise sn) y).n := by exact_mod_cast hhalf
    simp only [Instr.wf, hviews, hwidth, beq_self_eq_true, Bool.and_self]
  · have hdim : okDim sn.args.dstW = true := okDim_of_lt hdw (dstW_lt sn.args)
    have hstep : stepOf (normalise sn).wN sn.args.dstW =
        stepOf (lumaView sn (normalise sn) y).signedWidth sn.args.dstW := rfl
    have hrtl : (lumaView sn (normalise sn) y).rtl = rotRtl sn.rotation := rfl
    rw [rowInstr_general y hident hhalf]
    simp only [Instr.wf, hrtl, hviews, hdim, hstep, beq_self_eq_true, Bool.and_self]

/-- A fetch through the luma view of a destination row reads row `absRow` and column `absCol` of the luma plane (R105). -/
theorem lumaView_fetch {sn : Snapshot} (hc : argError sn.args = none) (y : Nat) (k : Int) :
    (lumaView sn (normalise sn) y).o + fetchIndex (lumaView sn (normalise sn) y) k = baseOf sn.args.yBase +
      absRow (rotBtt sn.rotation) sn.args.srcH (sourceRow sn.args.srcH sn.args.dstH y) * strideOf sn.args.yStride +
      absCol (rotRtl sn.rotation) sn.args.srcW k := by
  rw [fetch_absCol _ _ (lumaView_ok _ hc).1, lumaView_start]; rfl

/-- A fetch through the U view of a destination row reads row `absRow` and column `absCol` of the U plane (R105). -/
theorem uView_fetch {sn : Snapshot} (hc : argError sn.args = none) (y : Nat) (k : Int) :
    (uView sn (normalise sn) y).o + fetchIndex (uView sn (normalise sn) y) k = baseOf sn.args.uBase +
      absRow (rotBtt sn.rotation) (chromaH sn.layout sn.args.srcH)
        (chromaRow sn.layout (sourceRow sn.args.srcH sn.args.dstH y)) * strideOf sn.args.uStride +
      absCol (rotRtl sn.rotation) (chromaW sn.args.srcW) k := by
  rw [fetch_absCol _ _ (uView_ok _ hc).1, uView_start]; rfl

/-- A fetch through the V view of a destination row reads row `absRow` and column `absCol` of the V plane (R105). -/
theorem vView_fetch {sn : Snapshot} (hc : argError sn.args = none) (y : Nat) (k : Int) :
    (vView sn (normalise sn) y).o + fetchIndex (vView sn (normalise sn) y) k = baseOf sn.args.vBase +
      absRow (rotBtt sn.rotation) (chromaH sn.layout sn.args.srcH)
        (chromaRow sn.layout (sourceRow sn.args.srcH sn.args.dstH y)) * strideOf sn.args.vStride +
      absCol (rotRtl sn.rotation) (chromaW sn.args.srcW) k := by
  rw [fetch_absCol _ _ (vView_ok _ hc).1, vView_start]; rfl

/-- Settles O38, by the three views' fetches and the rows of the planes and of the destination that they are. -/
theorem viewsInAbsoluteCoordinates : Obligations.ViewsInAbsoluteCoordinates := by
  intro sn y k hc hy
  refine ⟨⟨lumaView_fetch hc y k, uView_fetch hc y k, vView_fetch hc y k⟩, fun b => ⟨fun h => ?_, row_in_dst hy⟩⟩
  simp only [Bool.or_eq_true] at h
  rcases h with (hluma | hu) | hv
  · exact lumaView_in_samples hc hy hluma
  · exact uView_in_samples hc hy hu
  · exact vView_in_samples hc hy hv

end Sys2Proof.Machine
end

section
/-! SUPPORT and PROOF. Commands at identity scale: their pixels by plane coordinates, and when reading from the other side gives the mirrored coordinates (R105, R106). -/

namespace Sys2Proof.Machine

/-- On ordinary memory the pixel a command just accepted writes is the reference pixel (R105). -/
theorem newPixel_ref {rs : List Region} {sn : Snapshot} {m : Memory} {y x : Nat} (hc : argError sn.args = none)
    (hord : SetsOrdinary rs sn) (hy : y < sn.args.dstH) (hx : x < sn.args.dstW) :
    newPixel rs (startEngine sn m) y x = some (refPixel sn m y x) := by
  obtain ⟨w, hw⟩ := rowFn_ok hc hy (fun a ha h => hord a ha (by rw [h, Bool.or_true])) m x
  have haccess : accessWord rs (dstPixel sn.args y x) = .ok () :=
    accessWord_of_ordinary (row_fits _) (fun a ha h => hord a ha (by rw [row_in_dst hy h, Bool.true_or])) hx
  rw [← rowFn_ref hc hw]
  exact (newPixel_eq ..).2 ⟨hw, haccess⟩

/-- The pixel of one luma sample and one sample of each chroma plane, by luma and chroma row and luma and chroma column. -/
def planePixel (a : Args) (m : Memory) (rows cols : Int × Int) : Word :=
  pack (yuvPixel (planeSample m (baseOf a.yBase) (strideOf a.yStride) rows.1 cols.1)
    (planeSample m (baseOf a.uBase) (strideOf a.uStride) rows.2 cols.2)
    (planeSample m (baseOf a.vBase) (strideOf a.vStride) rows.2 cols.2))

/-- The luma and the chroma row of destination row `y` at identity scale (R98, R99, R105). -/
def identityRows (l : Layout) (btt : Bool) (h y : Nat) : Int × Int :=
  (absRow btt h y, absRow btt (chromaH l h) (chromaRow l y))

/-- The traversal index of destination column `x` at identity scale: against the reading direction it is negative. -/
def identityIndex (rtl : Bool) (x : Nat) : Int := if rtl then -(x : Int) else x

/-- The luma and the chroma column of destination column `x` at identity scale (R83, R105). -/
def identityCols (rtl : Bool) (w x : Nat) : Int × Int :=
  (absCol rtl w (identityIndex rtl x), absCol rtl (chromaW w) (asr (identityIndex rtl x) 1))

/-- At identity scale the source row is the destination row (R98). -/
theorem sourceRow_identity {h : Nat} (hh : 1 ≤ h) (y : Nat) : y * h / h = y := Nat.mul_div_cancel y hh

/-- At a position -16·x the luma index is -x, the phase is 0 and the chroma index is the floor of -x/2 (R88). -/
theorem position_neg_sixteen (x : Nat) :
    asr ((x : Int) * -16) 4 = -x ∧ phaseOf ((x : Int) * -16) = 0 ∧ asr ((x : Int) * -16) 5 = asr (-(x : Int)) 1 := by
  simp only [phaseOf, asr]
  omega

/-- At identity scale every supported command writes pixels of single samples, in either reading direction (R105). -/
theorem refPixel_identity {sn : Snapshot} (hc : argError sn.args = none) (hw : sn.args.dstW = sn.args.srcW)
    (hh : sn.args.dstH = sn.args.srcH) (m : Memory) (y x : Nat) :
    refPixel sn m y x = planePixel sn.args m (identityRows sn.layout (rotBtt sn.rotation) sn.args.srcH y)
      (identityCols (rotRtl sn.rotation) sn.args.srcW x) := by
  obtain ⟨hwpos, hhpos, -, -⟩ := dims_pos hc
  have hrow := sourceRow_identity hhpos y
  simp only [refPixel, refLuma, refChroma, hw, hh, hrow]
  cases hr : rotRtl sn.rotation with
  | false => rfl
  | true =>
    have hstep : tdiv (16 * (sn.args.srcW : Int)) sn.args.srcW = 16 := Int.mul_tdiv_cancel 16 (by omega)
    obtain ⟨hluma, hphase, hchroma⟩ := position_neg_sixteen x
    simp only [Bool.true_eq_false, false_and, if_false, if_true, hstep, hluma, hphase, hchroma, blend_zero]
    rfl

/-- Reading right to left at identity scale reads each column's mirror image, where the chroma columns allow it: the width
is odd, or there is one chroma column (R106). -/
theorem identityCols_mirrored {w x : Nat} (hx : x < w) (hw : w % 2 = 1 ∨ w ≤ 2) :
    identityCols true w x = identityCols false w (w - 1 - x) := by
  simp only [identityCols, identityIndex, absCol, chromaW, asr, if_true, Bool.false_eq_true, if_false, Prod.mk.injEq]
  omega

/-- Reading bottom to top at identity scale reads each row's mirror image, where the chroma rows allow it: every luma row
has its own, the luma rows pair up, or there is one (R106). -/
theorem identityRows_mirrored {l : Layout} {h y : Nat} (hy : y < h) (hh : l = .l422 ∨ h % 2 = 0 ∨ h = 1) :
    identityRows l true h y = identityRows l false h (h - 1 - y) := by
  simp only [identityRows, absRow, if_true, Bool.false_eq_true, if_false, Prod.mk.injEq]
  cases l with
  | l422 => simp only [chromaH, chromaRow]; omega
  | l420 =>
    have heven : h % 2 = 0 ∨ h = 1 := by simpa using hh
    simp only [chromaH, chromaRow]
    omega

/-- Settles O53: every pixel is one of single samples, whose rows and columns are mirrored. -/
theorem rotationsAtIdentityScale : Obligations.RotationsAtIdentityScale := by
  intro rs l a m y x hc hw hh hord hy hx
  have hpixel : ∀ (r : Rotation) (y x : Nat), y < a.dstH → x < a.dstW →
      newPixel rs (startEngine ⟨l, r, a⟩ m) y x =
        some (planePixel a m (identityRows l (rotBtt r) a.srcH y) (identityCols (rotRtl r) a.srcW x)) := by
    intro r y x hy hx
    rw [newPixel_ref (sn := ⟨l, r, a⟩) hc hord hy hx, refPixel_identity (sn := ⟨l, r, a⟩) hc hw hh]
  have hy' : a.dstH - 1 - y < a.dstH := by omega
  have hx' : a.dstW - 1 - x < a.dstW := by omega
  have hcols : a.srcW % 2 = 1 ∨ a.srcW ≤ 2 →
      identityCols true a.srcW x = identityCols false a.srcW (a.dstW - 1 - x) := fun h => by
    rw [hw, identityCols_mirrored (hw ▸ hx) h]
  have hrows : l = .l422 ∨ a.srcH % 2 = 0 ∨ a.srcH = 1 →
      identityRows l true a.srcH y = identityRows l false a.srcH (a.dstH - 1 - y) := fun h => by
    rw [hh, identityRows_mirrored (hh ▸ hy) h]
  refine ⟨fun columns => ?mir0, fun rows => ?mir180, fun columns rows => ?rot180⟩
  case mir0 => simp only [hpixel _ _ _ hy hx, hpixel _ _ _ hy hx', rotRtl, rotBtt, hcols columns]
  case mir180 => simp only [hpixel _ _ _ hy hx, hpixel _ _ _ hy' hx, rotRtl, rotBtt, hrows rows]
  case rot180 => simp only [hpixel _ _ _ hy hx, hpixel _ _ _ hy' hx', rotRtl, rotBtt, hcols columns, hrows rows]

end Sys2Proof.Machine
end

section
/-! SUPPORT and PROOF. The rejections of a CMD write while IDLE: illegal words, unsupported rotations, and the argument checks of the supported commands in their order (R108 to R114). -/

namespace Sys2Proof.Machine

/-- While IDLE a CMD write of an Illegal word is rejected with code 1 (R109). -/
theorem cmdWrite_illegal {s : State} {w : Word} (hi : s.phase = .idle)
    (h : w.toNat / 128 ≠ 0 ∨ (w.toNat % 16 ≠ 1 ∧ w.toNat % 16 ≠ 2)) :
    act (.regWrite 0x00#6 4 w) s = .next (rejected w .illegalCommand s) := by
  obtain ⟨err, hd⟩ := (decode_error_iff w).2 h
  rw [regWrite_cmd rfl rfl, writeCmd_illegal hd, issueRejected_idle hi]

/-- Settles O14: such a word does not decode, and the OPC of the word 0 is neither 1 nor 2. -/
theorem illegalWordRejected : Obligations.IllegalWordRejected :=
  ⟨fun _ _ hi h => cmdWrite_illegal hi h, fun _ hi => cmdWrite_illegal hi (.inr (by decide))⟩

/-- The eight unsupported commands are those of the four unsupported rotations (R68, R110). -/
theorem commandOf_mem_unsupported_iff (l : Layout) (r : Rotation) :
    commandOf l r ∈ [Instr.scale420Rot90, .scale420Rot270, .scale420Mir90, .scale420Mir270, .scale422Rot90,
      .scale422Rot270, .scale422Mir90, .scale422Mir270] ↔ rotSupported r = false := by
  cases l <;> cases r <;> decide

/-- Settles O15: what has a word is a command, and the commands listed are those of an unsupported rotation. -/
theorem unsupportedRotationRejected : Obligations.UnsupportedRotationRejected := by
  intro s i w hi hmem henc
  obtain ⟨l, r, rfl, rfl⟩ := decode_command (decode_of_encode henc)
  rw [exec_unsupported ((commandOf_mem_unsupported_iff l r).1 hmem), issueRejected_idle hi]

/-- The argument checks in their order, on the register bits (R111, R112, R113). -/
theorem argError_eq (a : Args) :
    argError a =
      if a.srcSize.toNat % 65536 = 0 ∨ a.srcSize.toNat / 65536 = 0 ∨ a.dstSize.toNat % 65536 = 0 ∨
          a.dstSize.toNat / 65536 = 0 then some .zeroDimension
      else if a.dstBase.toNat % 4 ≠ 0 ∨ a.dstStride.toNat % 4 ≠ 0 then some .dstMisaligned
      else if 1 < a.dstSize.toNat / 65536 ∧ a.dstStride.toInt.natAbs < 4 * (a.dstSize.toNat % 65536) then
        some .dstRowOverlap
      else none := by
  simp only [argError, strideOf, srcW_eq, srcH_eq, dstW_eq, dstH_eq, ne_eq, low_bits_zero]

/-- A supported command whose checks find an error is rejected with its code while IDLE (R108, R114). -/
theorem exec_argError {l : Layout} {r : Rotation} {s : State} {c : ErrorCode} (hi : s.phase = .idle)
    (hr : rotSupported r = true) (hc : argError s.args = some c) :
    exec (commandOf l r) s = .next (rejected (commandWord l r) c s) := by
  simp only [exec_supported hr, issueScale, hi, hc]
  rfl

/-- A supported command whose checks find no error is accepted wherever it answers a next state (R115). -/
theorem exec_next_accepted {l : Layout} {r : Rotation} {s t : State} (hi : s.phase = .idle)
    (hr : rotSupported r = true) (hc : argError s.args = none) (h : exec (commandOf l r) s = .next t) :
    t = accepted l r s := by
  rw [exec_supported hr] at h
  rcases issueScale_next hi h with ⟨c, herr, -⟩ | ⟨-, -, ht⟩
  · cases hc.symm.trans herr
  · exact ht

/-- Settles O16: each clause says which of the checks is the first to fail, or that none does. -/
theorem argumentChecksInOrder : Obligations.ArgumentChecksInOrder := by
  intro s l r hi hr w h dw dh
  have rejection {c : ErrorCode} := exec_argError (l := l) (c := c) hi hr
  have nonzero (hd : w ≠ 0 ∧ h ≠ 0 ∧ dw ≠ 0 ∧ dh ≠ 0) : ¬(w = 0 ∨ h = 0 ∨ dw = 0 ∨ dh = 0) := by omega
  have aligned (ha : s.args.dstBase.toNat % 4 = 0 ∧ s.args.dstStride.toNat % 4 = 0) :
      ¬(s.args.dstBase.toNat % 4 ≠ 0 ∨ s.args.dstStride.toNat % 4 ≠ 0) := by omega
  refine ⟨fun hz => rejection ?zero, fun hd hm => rejection ?misaligned, fun hd ha ho => rejection ?overlap,
    fun hd ha hp t => exec_next_accepted hi hr ?pass⟩
  case zero => rw [argError_eq, if_pos hz]
  case misaligned => rw [argError_eq, if_neg (nonzero hd), if_pos hm]
  case overlap => rw [argError_eq, if_neg (nonzero hd), if_neg (aligned ha), if_pos ho]
  case pass =>
    have apart : ¬(1 < dh ∧ s.args.dstStride.toInt.natAbs < 4 * dw) := fun ⟨hdh, hlt⟩ => (hp hdh).not_gt hlt
    rw [argError_eq, if_neg (nonzero hd), if_neg (aligned ha), if_neg apart]

end Sys2Proof.Machine
end

section
/-! SUPPORT and PROOF. Reset and the reset input: the registers, the base case of the invariant, and what memory holds after a command is abandoned (R127, R128). -/

namespace Sys2Proof.Machine

/-- Every register has the reset value 0 (R128). -/
theorem readReg_reset (r : Reg) : readReg State.reset r = 0 := by cases r <;> rfl

/-- After the reset input every register reads as it does in the reset state (R127). -/
theorem readReg_resetInput (s : State) (r : Reg) : readReg (resetInput s) r = readReg State.reset r := by
  cases r <;> rfl

/-- Settles O4: every register has the reset value 0, and the reset state's phase is IDLE by definition. -/
theorem resetRegistersReadZero : Obligations.ResetRegistersReadZero := ⟨readReg_reset, rfl⟩

/-- A state that differs from the reset state only in memory in canonical form, the argument registers, CMD, the coming
events and the regions meets the invariant: it is IDLE, and DONE is 0. -/
theorem reset_with_inv {m : Memory} (hm : m.wf = true) (a : Args) (w : Word) (ins : List Input) (rs : List Region) :
    { State.reset with mem := m, args := a, cmd := w, inputs := ins, regions := rs }.Inv :=
  (inv_idle rfl).2 ⟨hm, fun hdone => Bool.noConfusion hdone⟩

/-- Settles O44: the reset state is itself such a state, with empty memory. -/
theorem resetMeetsInvariant : Obligations.ResetMeetsInvariant :=
  ⟨reset_with_inv (m := []) rfl Args.reset 0 [] [], fun _ a w ins rs hm => reset_with_inv hm a w ins rs⟩

/-- While IDLE the reset input leaves memory as it is (R127). -/
theorem resetMem_idle {s : State} (h : s.phase = .idle) : resetMem s = s.mem := by unfold resetMem; rw [h]

/-- During a command the reset input leaves the destination rows old or new, pixel by pixel (R127). -/
theorem resetMem_busy {s : State} {e : Engine} (h : s.phase = .busy e) :
    resetMem s = resetRows s e e.snap.args.dstH s.mem := by unfold resetMem; rw [h]

/-- After the reset input during a command each destination pixel holds its reset word, since the destination rows lie
apart and a row written later leaves the earlier ones (R54, R127). -/
theorem resetMem_pixel {s : State} {e : Engine} (hb : s.phase = .busy e) (hi : EngineInv s e) {y x : Nat}
    (hy : y < e.snap.args.dstH) (hx : x < e.snap.args.dstW) :
    (resetMem s).readWord (dstPixel e.snap.args y x) = resetWord s e y x := by
  obtain ⟨⟨-, -, hargs, -, -, hc, hap, -⟩, -⟩ := hi
  rw [← hargs] at hc hap
  rw [resetMem_busy hb]
  exact resetRows_value s e s.mem hc hap _ (le_refl _) y x hy hx

/-- The reset input during a command changes no byte outside the destination set (R127). -/
theorem resetMem_off {s : State} {e : Engine} (hb : s.phase = .busy e) {a : Nat}
    (ha : spansHold (dstSpans e.snap.args) a = false) : (resetMem s).read a = s.mem.read a := by
  rw [resetMem_busy hb]
  exact resetRows_off s e s.mem ha _ (le_refl _)

/-- Settles O5: the registers are those of the reset state, each destination pixel holds its reset word, which is the
old or the new one, and the writes stay in the destination set. -/
theorem resetInputAbandonsCommand : Obligations.ResetInputAbandonsCommand := by
  intro s hs
  have registers (r : Reg) : readReg (resetInput s) r = 0 := (readReg_resetInput s r).trans (readReg_reset r)
  refine ⟨resetInput s, rfl, ⟨registers, rfl⟩, resetMem_idle, fun e hb => ⟨fun y x hy hx => ?pixel, fun a ha => ?frame⟩⟩
  case pixel =>
    obtain ⟨-, hengine⟩ := (inv_busy hb).1 hs
    rw [resetInput_mem, resetMem_pixel hb hengine hy hx]
    exact resetWord_old_or_new s e y x
  case frame => exact resetMem_off hb ha

end Sys2Proof.Machine
end
